-- ==== Sys2Proof/Word.lean ====
section
/-! DEFINITION. The two word types of the block: a byte of frame memory (20_memory R60, 00_scope R13) and a
register or command word (10_state R20, 30_encoding R90). -/

namespace Sys2Proof

/-- A byte of frame memory, and a colour sample: an unsigned number 0 .. 255 (00_scope R13). -/
abbrev Byte := BitVec 8

/-- A register or a command word: 32 bits, unsigned (10_state R20, R24; 30_encoding R90). -/
abbrev Word := BitVec 32

end Sys2Proof
end

