-- ==== Sys2Proof/Config.lean ====
section
/-! DEFINITION. The configuration of the block (00_scope R6) and its free bytes. `MEM_SIZE`, `COEF_FWD` and
`COEF_INV` are parameters that a model takes as arguments (93_implementation_defined U18); they are plain data, and
`State` carries them, so that a statement about every state holds for every configuration (log entry 2). The other
parameters of R6 have the one value R6 fixes and are built into the definitions that use them: `SAMPLE_BITS` 8 (`Byte`),
`REG_BITS` and `ADDR_BITS` 32 (`Word`), `ARITH` exact (`Ratio`), `ODD_DIMS` fault and `EMPTY_SEQ` fault
(Machine/Checks.lean), `PLANE_ORDER` row-major (Machine/Operands.lean). `BUS_PROTOCOL` has no place in a model of atomic
transactions (U18, log entry 14). -/

namespace Sys2Proof

/-- An exact rational number as the literal spells it, `num / den` (40_colour_transform R112: "each decimal literal of
the document is read as the rational it spells"). Not reduced; `den` is positive in every legal configuration. -/
structure Ratio where
  num : Int
  den : Nat
  deriving DecidableEq, Repr

/-- One row of `COEF_FWD`: the multipliers of `R`, `G`, `B` and the offset (40_colour_transform R112). -/
structure FwdRow where
  r      : Ratio
  g      : Ratio
  b      : Ratio
  offset : Ratio
  deriving DecidableEq, Repr

/-- `COEF_FWD` (40_colour_transform R112). -/
structure CoefFwd where
  y : FwdRow
  u : FwdRow
  v : FwdRow
  deriving DecidableEq, Repr

/-- One row of `COEF_INV`: the multipliers of `Y` and of the shifted `u`, `v` (40_colour_transform R122). -/
structure InvRow where
  y : Ratio
  u : Ratio
  v : Ratio
  deriving DecidableEq, Repr

/-- `COEF_INV` with the chroma shift (40_colour_transform R121, R122). -/
structure CoefInv where
  r     : InvRow
  g     : InvRow
  b     : InvRow
  shift : Int
  deriving DecidableEq, Repr

/-- The configuration of 00_scope R6 that differs between blocks. -/
structure Config where
  /-- `MEM_SIZE`: addresses `0 .. memSize - 1` exist. -/
  memSize : Nat
  coefFwd : CoefFwd
  coefInv : CoefInv
  deriving DecidableEq, Repr

/-- The default of `COEF_FWD`, the document's literals (40_colour_transform R111, R112). -/
def CoefFwd.document : CoefFwd where
  y := ⟨⟨299, 1000⟩, ⟨587, 1000⟩, ⟨114, 1000⟩, ⟨0, 1⟩⟩
  u := ⟨⟨-169, 1000⟩, ⟨-331, 1000⟩, ⟨449, 1000⟩, ⟨128, 1⟩⟩
  v := ⟨⟨499, 1000⟩, ⟨-418, 1000⟩, ⟨-813, 10000⟩, ⟨128, 1⟩⟩

/-- The default of `COEF_INV`, the document's literals (40_colour_transform R121, R122). -/
def CoefInv.document : CoefInv where
  r := ⟨⟨1, 1⟩, ⟨0, 1⟩, ⟨1402, 1000⟩⟩
  g := ⟨⟨1, 1⟩, ⟨-344, 1000⟩, ⟨-714, 1000⟩⟩
  b := ⟨⟨1, 1⟩, ⟨1772, 1000⟩, ⟨0, 1⟩⟩
  shift := 128

/-- The block with a memory of the given size and the document's coefficients. -/
def Config.document (memSize : Nat) : Config := ⟨memSize, .document, .document⟩

/-- Every denominator of a row is positive. -/
def FwdRow.wf (c : FwdRow) : Bool := 0 < c.r.den && 0 < c.g.den && 0 < c.b.den && 0 < c.offset.den

/-- Every denominator of a row is positive. -/
def InvRow.wf (c : InvRow) : Bool := 0 < c.y.den && 0 < c.u.den && 0 < c.v.den

/-- A legal configuration: `1 <= MEM_SIZE <= 2^32` (00_scope R6) and every coefficient a number (log entry 12). -/
def Config.wf (c : Config) : Bool :=
  1 ≤ c.memSize && c.memSize ≤ 2 ^ 32 &&
  c.coefFwd.y.wf && c.coefFwd.u.wf && c.coefFwd.v.wf &&
  c.coefInv.r.wf && c.coefInv.g.wf && c.coefInv.b.wf

/-- The free bytes: the values the spec leaves unspecified (70_reset_and_hazards R222, R225; 93 U13, U14). The n-th byte
drawn in a run is `freeByte n`; it has no body, so nothing can be proved of its value (log entry 5). -/
opaque Config.freeByte : Nat → Byte

end Sys2Proof
end

