-- ==== Sys2Proof/Machine/Arith.lean ====
section
/-! DEFINITION. The arithmetic of samples: exact rationals (00_scope R9, `ARITH = exact`), the three narrowings
(00_scope R14), the pixel functions of the colour transform (40_colour_transform R111 to R113, R121 to R123) and the
sample functions of the delta coder (41_delta_coder R141, R142). -/

namespace Sys2Proof

/-- The integer as a rational. -/
def Ratio.ofInt (z : Int) : Ratio := ⟨z, 1⟩

/-- The exact sum. -/
def Ratio.add (p q : Ratio) : Ratio := ⟨p.num * q.den + q.num * p.den, p.den * q.den⟩

/-- The exact product with an integer. -/
def Ratio.scale (p : Ratio) (z : Int) : Ratio := ⟨p.num * z, p.den⟩

/-- `p <= q`, for positive denominators. -/
def Ratio.le (p q : Ratio) : Bool := p.num * q.den ≤ q.num * p.den

/-- `clamp(q, lo, hi) = max(lo, min(hi, q))` (00_scope R9). -/
def Ratio.clamp (q lo hi : Ratio) : Ratio :=
  let m := if hi.le q then hi else q
  if m.le lo then lo else m

/-- `trunc(q)`: rounded toward zero (00_scope R9). -/
def Ratio.trunc (q : Ratio) : Int := q.num.tdiv q.den

end Sys2Proof

namespace Sys2Proof.Machine

/-- `mod8(n) = n mod 256` (00_scope R14). -/
def mod8 (z : Int) : Byte := BitVec.ofInt 8 z

/-- `wrap8(q) = trunc(q) mod 256` (00_scope R14), the forward transform's narrowing (40_colour_transform R113). -/
def wrap8 (q : Ratio) : Byte := mod8 q.trunc

/-- `clamp8(q) = trunc(clamp(q, 0, 255))` (00_scope R14), the inverse transform's narrowing (40_colour_transform R123). -/
def clamp8 (q : Ratio) : Byte := mod8 (q.clamp (.ofInt 0) (.ofInt 255)).trunc

/-- The real value of one forward formula at a pixel (40_colour_transform R111, R112), exact (R113). -/
def fwdReal (c : FwdRow) (r g b : Byte) : Ratio :=
  (((c.r.scale r.toNat).add (c.g.scale g.toNat)).add (c.b.scale b.toNat)).add c.offset

/-- `fwdY` (40_colour_transform R113, R114). -/
def fwdY (c : CoefFwd) (r g b : Byte) : Byte := wrap8 (fwdReal c.y r g b)

/-- `fwdU` (40_colour_transform R113, R114). -/
def fwdU (c : CoefFwd) (r g b : Byte) : Byte := wrap8 (fwdReal c.u r g b)

/-- `fwdV` (40_colour_transform R113, R114). -/
def fwdV (c : CoefFwd) (r g b : Byte) : Byte := wrap8 (fwdReal c.v r g b)

/-- The real value of one inverse formula (40_colour_transform R122); the chroma shift is taken in the integers (R121). -/
def invReal (c : InvRow) (shift : Int) (y u v : Byte) : Ratio :=
  ((c.y.scale y.toNat).add (c.u.scale (u.toNat - shift))).add (c.v.scale (v.toNat - shift))

/-- `invR` (40_colour_transform R122, R123). -/
def invR (c : CoefInv) (y u v : Byte) : Byte := clamp8 (invReal c.r c.shift y u v)

/-- `invG` (40_colour_transform R122, R123). -/
def invG (c : CoefInv) (y u v : Byte) : Byte := clamp8 (invReal c.g c.shift y u v)

/-- `invB` (40_colour_transform R122, R123). -/
def invB (c : CoefInv) (y u v : Byte) : Byte := clamp8 (invReal c.b c.shift y u v)

/-- `sub8(a, b) = (a - b) mod 256`, the subtraction in the integers (41_delta_coder R141). -/
def sub8 (a b : Byte) : Byte := mod8 ((a.toNat : Int) - b.toNat)

/-- `add8(a, b) = (a + b) mod 256`, the addition in the integers (41_delta_coder R142). -/
def add8 (a b : Byte) : Byte := mod8 ((a.toNat : Int) + b.toNat)

end Sys2Proof.Machine
end

