-- ==== Sys2Proof/Syntax.lean ====
section
/-! DEFINITION. The command set (30_encoding R92): the six commands, whole. A command has no operand field and no
immediate (R90, R91): its operands are registers, so no constructor carries an argument. -/

namespace Sys2Proof

/-- The six commands of 30_encoding R92, in the order of its table. -/
inductive Instr where
  /-- `CSC_FWD`: RGB24 to planar YUV420 (40_colour_transform R117). -/
  | cscFwd
  /-- `CSC_INV`: planar YUV420 to RGB24 (40_colour_transform R125). -/
  | cscInv
  /-- `DELTA_ENC`: a YUV sequence to a delta sequence (41_delta_coder R151). -/
  | deltaEnc
  /-- `DELTA_DEC`: a delta sequence to a YUV sequence (41_delta_coder R152). -/
  | deltaDec
  /-- `DIFF`: one delta frame (41_delta_coder R147). -/
  | diff
  /-- `ACC`: one accumulated frame (41_delta_coder R150). -/
  | acc
  deriving DecidableEq, Repr

end Sys2Proof
end

