-- ==== Sys2Proof/WellFormed.lean ====
section
/-! DEFINITION. What makes the two fields of a command word well formed (30_encoding R90, R93). A command of
`Instr` carries no operand, so nothing about the syntax itself can be ill formed; what can is the word: its reserved
field must be zero and its operation code must be one of the six. -/

namespace Sys2Proof

/-- The two fields of format `C`: `OP` in bits 7:0 and `RSV` in bits 31:8 (30_encoding R90). -/
structure CommandFields where
  op  : BitVec 8
  rsv : BitVec 24
  deriving DecidableEq, Repr

/-- "reserved; must be zero" (30_encoding R90). -/
def CommandFields.reservedZero (f : CommandFields) : Bool := f.rsv == 0

/-- `OP` is one of the six codes that 30_encoding R92 assigns. -/
def CommandFields.opAssigned (f : CommandFields) : Bool := 1 ≤ f.op.toNat && f.op.toNat ≤ 6

/-- A word with these fields is a command (30_encoding R92, R93). -/
def CommandFields.wellFormed (f : CommandFields) : Bool := f.reservedZero && f.opAssigned

/-- The column `OP` of the opcode table (30_encoding R92). -/
def Instr.opcode : Instr → BitVec 8
  | .cscFwd   => 0x01
  | .cscInv   => 0x02
  | .deltaEnc => 0x03
  | .deltaDec => 0x04
  | .diff     => 0x05
  | .acc      => 0x06

/-- The fields a command is encoded with: its operation code and a zero reserved field. -/
def Instr.fields (i : Instr) : CommandFields := ⟨i.opcode, 0⟩

/-- A command is well formed when its fields are; every one of the six is (`Laws.Format`). -/
def Instr.WellFormed (i : Instr) : Prop := i.fields.wellFormed = true

end Sys2Proof
end

