-- ==== Sys2Proof/Decode.lean ====
section
/-! DEFINITION. Decoding a command word, total on 32-bit words and rejecting by name (30_encoding R93, R96), and
after it the encoder, its inverse on the six commands (R96). -/

namespace Sys2Proof

/-- Why a word is no command (30_encoding R93). -/
inductive Reject where
  /-- A bit of `RSV` is set, whatever `OP` is. -/
  | reservedBits (rsv : BitVec 24)
  /-- `RSV` is zero and `OP` is none of the six codes. -/
  | unassignedOp (op : BitVec 8)
  deriving DecidableEq, Repr

/-- What decoding a word gives: a command, or the reason the word is illegal (30_encoding R96). -/
inductive Decoded where
  | command (i : Instr)
  | illegal (r : Reject)
  deriving DecidableEq, Repr

/-- `bits[7:0]`, the field `OP` (30_encoding R90). -/
def opField (w : Word) : BitVec 8 := w.extractLsb' 0 8

/-- `bits[31:8]`, the field `RSV` (30_encoding R90). -/
def rsvField (w : Word) : BitVec 24 := w.extractLsb' 8 24

/-- The operation codes (30_encoding R92, R96). -/
def decodeOp (op : BitVec 8) : Decoded :=
  match op.toNat with
  | 0x01 => .command .cscFwd
  | 0x02 => .command .cscInv
  | 0x03 => .command .deltaEnc
  | 0x04 => .command .deltaDec
  | 0x05 => .command .diff
  | 0x06 => .command .acc
  | _    => .illegal (.unassignedOp op)

/-- `decode` of 30_encoding R96: reserved bits first, then the operation code. -/
def decode (w : Word) : Decoded :=
  if rsvField w = 0 then decodeOp (opField w) else .illegal (.reservedBits (rsvField w))

/-- The command word of a command: `RSV` zero in the high bits, `OP` in the low eight (30_encoding R90, R92). -/
def encode (i : Instr) : Word := i.fields.rsv ++ i.fields.op

/-- The command a decoded word is, if it is one. -/
def Decoded.instr? : Decoded → Option Instr
  | .command i => some i
  | .illegal _ => none

/-- The command this decoder reads from the word whose bits are `w`, bit 0 the least significant, of which the table
gives `nbits` and every higher bit is zero. A command is the one 32-bit value written to `CMD` (30_encoding R90), so no
byte order arises; a value of more than 32 bits is no command word. -/
def decodeTableWord (nbits w : Nat) : Option Instr :=
  let v := w % 2 ^ nbits
  if v < 2 ^ 32 then (decode (BitVec.ofNat 32 v)).instr? else none

end Sys2Proof
end

