-- ==== Sys2Proof/Machine/State.lean ====
section
/-! DEFINITION. The state of the block and of what acts on it, as plain data. The block itself is the registers and the
frame memory (10_state R20); `config` carries its parameters; the remaining fields are the model's own: who moves next,
what the host has read, and the bookkeeping of the bytes the spec leaves unspecified. -/

namespace Sys2Proof.Machine

/-- The registers with storage: all of 10_state R23 but `CTRL`, which "has no storage; reads 0" (R41). Each is the whole
32-bit word a host reads. -/
structure Registers where
  /-- 0x00: the last accepted command word (10_state R26). -/
  cmd     : Word
  /-- 0x04: `BUSY` bit 0, `DONE` bit 1, `ERR` bit 2 (10_state R27). -/
  status  : Word
  /-- 0x08: the code of the latched fault (10_state R28). -/
  errcode : Word
  /-- 0x0C: the register offset of the offending parameter (10_state R29). -/
  errinfo : Word
  width   : Word
  height  : Word
  nframes : Word
  src     : Word
  dst     : Word
  ref     : Word
  len     : Word
  deriving DecidableEq, Repr

/-- The twelve names of the register map (10_state R23). -/
inductive Reg where
  | cmd | status | errcode | errinfo
  | width | height | nframes | src | dst | ref | len
  | ctrl
  deriving DecidableEq, Repr

/-- The block's own faults, "error kinds" (60_exceptions R190). They are reported in `ERRCODE` and stop nothing. -/
inductive ErrorKind where
  | invalidGeometry
  | emptyInput
  /-- Never raised by the block (60_exceptions R196). -/
  | corruptBlob
  | geometryMismatch
  | illegalCommand
  | busError
  | overlap
  deriving DecidableEq, Repr

/-- What a failing check reports: the kind, and the register at fault (60_exceptions R190, R199). -/
structure Report where
  kind : ErrorKind
  info : Reg
  deriving DecidableEq, Repr

/-- What the host can do to the block (00_scope R8), each one atomic transaction (20_memory R73). -/
inductive HostAction where
  /-- `RegWrite(off, v)` (10_state R21). -/
  | regWrite (off v : Word)
  /-- `RegRead(off)` (10_state R22). -/
  | regRead (off : Word)
  /-- One byte written to the frame memory (20_memory R61). -/
  | memWrite (addr : Nat) (b : Byte)
  /-- One byte read from the frame memory (20_memory R61). -/
  | memRead (addr : Nat)
  /-- The reset input asserted and released (70_reset_and_hazards R220, log entry 7). -/
  | hardReset
  deriving DecidableEq, Repr

/-- One move of an agent: a transaction of the host, or the engine's completion step (00_scope R8). -/
inductive Event where
  | host (h : HostAction)
  | engine
  deriving DecidableEq, Repr

/-- The frame memory: the bytes that differ from what an unlisted address reads as, addresses rising (20_memory R60). -/
abbrev Memory := List Host.Cell

/-- What an address that is not listed reads as. The spec leaves the power-on contents open (70_reset_and_hazards R223);
0xAA is the arbitrary choice its own programs start from (95_test_vectors Part 3). DESIGN CHOICE, log entry 4. Any other
contents are a list of cells too: `State.powerOn` takes them as its input. -/
def Memory.unlisted : Byte := 0xAA

/-- The canonical form: addresses strictly rising, no entry equal to what an unlisted address reads as. -/
abbrev Memory.wf (m : Memory) : Prop :=
  m.Pairwise (fun x y => x.1 < y.1) ∧ ∀ c ∈ m, c.2 ≠ Memory.unlisted

structure State where
  /-- The parameters of the block (00_scope R6); no step changes them (log entry 2). -/
  config    : Config
  /-- The register file (10_state R20, R23). -/
  regs      : Registers
  /-- The frame memory (20_memory R60). -/
  mem       : Memory
  /-- Who moves next, first event first: one interleaving of host and engine (20_memory R73, log entry 1). -/
  agenda    : List Event
  /-- The value the host's last `RegRead` received (log entry 9). -/
  regData   : Word
  /-- The byte the host's last memory read received (log entry 9). -/
  memData   : Byte
  /-- The accepted commands for which no `STATUS` read has yet returned `BUSY = 0`, newest first, each as the register
  file at its issue (70_reset_and_hazards R225, log entry 6). -/
  unpolled  : List Registers
  /-- The addresses the host has written since the pending command was accepted (log entry 6). -/
  touched   : List Nat
  /-- How many free bytes have been drawn (log entry 5). -/
  freeCount : Nat
  deriving DecidableEq, Repr

/-- Why the machine stops with a fault. No command does: both faults and refusals concern the host's own accesses. -/
inductive Fault where
  /-- Raised by a host byte access at an address that does not exist, `MEM_SIZE` or above: what it does "is outside this
  spec" (20_memory R61). Safe: the model stops where the hardware may go on (log entry 8). -/
  | hostAddressOutsideMemory (addr : Nat)
  deriving DecidableEq, Repr

/-- Why a step has no meaning. -/
inductive Refusal where
  /-- Raised by an arm of `exec` whose instruction has no meaning yet; no arm is. Safe. -/
  | notModelled (mnemonic : String)
  /-- Raised by `RegWrite` or `RegRead` at an offset that is not a multiple of 4: "the block's behaviour for them is not
  defined by this spec" (10_state R21); U9 asks for a refusal. Safe: the model stops (log entry 10). -/
  | unalignedRegisterAccess (off : Word)
  deriving DecidableEq, Repr

/-- Every register holds zero (10_state R23, R41). -/
def Registers.reset : Registers where
  cmd     := 0
  status  := 0
  errcode := 0
  errinfo := 0
  width   := 0
  height  := 0
  nframes := 0
  src     := 0
  dst     := 0
  ref     := 0
  len     := 0

/-- The machine right after a hard reset (10_state R41): registers zero, engine idle, memory with nothing listed. The
memory size is that of the spec's programs (log entry 3); the model's own fields are empty or zero (log entries 1, 5, 6, 9).
It is one of the start states `State.powerOn` gives for every configuration and every memory contents (log entry 4). -/
def State.reset : State where
  config    := .document 0x1000
  regs      := .reset
  mem       := []
  agenda    := []
  regData   := 0
  memData   := 0
  unpolled  := []
  touched   := []
  freeCount := 0

end Sys2Proof.Machine
end

