-- ==== Sys2Proof/Machine/Operands.lean ====
section
/-! DEFINITION. The one addressing mode of the block (20_memory R79): geometry read from the registers, regions of each
command, addresses of samples inside a frame, and which input bytes an output byte depends on. Sizes and addresses are
natural numbers and never wrap (20_memory R72). -/

namespace Sys2Proof.Machine

/-- `W` (00_scope R12). -/
def Registers.w (r : Registers) : Nat := r.width.toNat

/-- `H` (00_scope R12). -/
def Registers.h (r : Registers) : Nat := r.height.toNat

/-- `N` (00_scope R12). -/
def Registers.n (r : Registers) : Nat := r.nframes.toNat

/-- `CW`, the chroma plane width (00_scope R12). -/
def Registers.cw (r : Registers) : Nat := r.w / 2

/-- `CH`, the chroma plane height (00_scope R12). -/
def Registers.ch (r : Registers) : Nat := r.h / 2

/-- `RGB_BYTES` (00_scope R12). -/
def Registers.rgbBytes (r : Registers) : Nat := r.w * r.h * 3

/-- `YUV_BYTES` (00_scope R12). -/
def Registers.yuvBytes (r : Registers) : Nat := r.w * r.h + 2 * (r.cw * r.ch)

/-- A region `[base, base + size)` of the frame memory (20_memory R63). -/
structure Region where
  base : Nat
  size : Nat
  deriving DecidableEq, Repr

/-- The address lies in the region. -/
def Region.holds (g : Region) (a : Nat) : Bool := g.base ≤ a && a < g.base + g.size

/-- "in range when `base + size <= MEM_SIZE`" (20_memory R63). -/
def Region.inRange (memSize : Nat) (g : Region) : Bool := g.base + g.size ≤ memSize

/-- The regions share at least one address: the form of 20_memory R63 for non-empty regions, and no overlap when one of
them is empty. -/
def Region.overlaps (a b : Region) : Bool :=
  0 < a.size && 0 < b.size && a.base < b.base + b.size && b.base < a.base + a.size

/-- The regions of one command (20_memory R63). -/
structure Footprint where
  source    : Region
  reference : Option Region
  dest      : Region
  deriving DecidableEq, Repr

/-- The table of 20_memory R63. -/
def footprint (i : Instr) (r : Registers) : Footprint :=
  let s := r.src.toNat
  let d := r.dst.toNat
  match i with
  | .cscFwd   => ⟨⟨s, r.rgbBytes⟩, none, ⟨d, r.yuvBytes⟩⟩
  | .cscInv   => ⟨⟨s, r.yuvBytes⟩, none, ⟨d, r.rgbBytes⟩⟩
  | .deltaEnc => ⟨⟨s, r.n * r.yuvBytes⟩, none, ⟨d, r.n * r.yuvBytes⟩⟩
  | .deltaDec => ⟨⟨s, r.n * r.yuvBytes⟩, none, ⟨d, r.n * r.yuvBytes⟩⟩
  | .diff     => ⟨⟨s, r.yuvBytes⟩, some ⟨r.ref.toNat, r.yuvBytes⟩, ⟨d, r.yuvBytes⟩⟩
  | .acc      => ⟨⟨s, r.yuvBytes⟩, some ⟨r.ref.toNat, r.yuvBytes⟩, ⟨d, r.yuvBytes⟩⟩

/-- The address of `RGB(a, y, x, c)` (20_memory R64). -/
def rgbAddr (w a y x c : Nat) : Nat := a + 3 * (y * w + x) + c

/-- The address of `Y(a, y, x)` (20_memory R65). -/
def yAddr (w a y x : Nat) : Nat := a + y * w + x

/-- The address of `U(a, i, j)` in a frame of `w` by `h` (20_memory R65). -/
def uAddr (w h a i j : Nat) : Nat := a + w * h + i * (w / 2) + j

/-- The address of `V(a, i, j)` in a frame of `w` by `h` (20_memory R65). -/
def vAddr (w h a i j : Nat) : Nat := a + w * h + (w / 2) * (h / 2) + i * (w / 2) + j

/-- The base of frame `k` of a sequence of frames of `f` bytes at `a` (20_memory R67). -/
def frameAddr (a f k : Nat) : Nat := a + k * f

/-- The pixel, row and column, that byte `k` of a planar frame is computed from by `CSC_FWD`: its own pixel for the
luma plane, the top-left pixel of its block for the chroma planes (20_memory R65, 40_colour_transform R116). -/
def fwdPixel (r : Registers) (k : Nat) : Nat × Nat :=
  if k < r.w * r.h then (k / r.w, k % r.w)
  else
    let j := (k - r.w * r.h) % (r.cw * r.ch)
    (2 * (j / r.cw), 2 * (j % r.cw))

/-- The pixel, row and column, that byte `k` of an RGB24 frame belongs to (20_memory R64). -/
def invPixel (r : Registers) (k : Nat) : Nat × Nat := (k / 3 / r.w, k / 3 % r.w)

/-- The addresses of the input bytes that byte `k` of the destination region is computed from (40_colour_transform
R118, R126; 41_delta_coder R145, R152, R155). A colour sample has the three inputs of its pixel, whatever the coefficients;
with the default ones `invR` ignores `U` and `invB` ignores `V` (40_colour_transform R124), and 70_reset_and_hazards R225 does
not say whether such a byte still "depends on" that input. That it does is DESIGN CHOICE, log entry 6. -/
def inputsOf (i : Instr) (r : Registers) (k : Nat) : List Nat :=
  let s := r.src.toNat
  let f := r.yuvBytes
  match i with
  | .cscFwd =>
    let p := fwdPixel r k
    [rgbAddr r.w s p.1 p.2 0, rgbAddr r.w s p.1 p.2 1, rgbAddr r.w s p.1 p.2 2]
  | .cscInv =>
    let p := invPixel r k
    [yAddr r.w s p.1 p.2, uAddr r.w r.h s (p.1 / 2) (p.2 / 2), vAddr r.w r.h s (p.1 / 2) (p.2 / 2)]
  | .deltaEnc => if k < f then [s + k] else [s + k, s + k - f]
  | .deltaDec => (List.range (k / f + 1)).map (fun j => frameAddr s f j + k % f)
  | .diff => [s + k, r.ref.toNat + k]
  | .acc  => [s + k, r.ref.toNat + k]

/-- Byte `k` of the destination region is unspecified once the host has written the address `a` while the command was
under way: it is that byte, or depends on it (70_reset_and_hazards R225). -/
def disturbedBy (i : Instr) (r : Registers) (a k : Nat) : Bool :=
  a == (footprint i r).dest.base + k || (inputsOf i r k).contains a

end Sys2Proof.Machine
end

