-- ==== Sys2Proof/Machine/Checks.lean ====
section
/-! DEFINITION. The fault checks of a command (60_exceptions R191 to R198) and their order (R200). They read registers and
`MEM_SIZE` only, never memory (R192). The illegal word (R191) is found by `decode` before any of these. -/

namespace Sys2Proof.Machine

/-- A dimension is zero or odd (60_exceptions R193). -/
def badDimension (w : Word) : Bool := w.toNat = 0 || w.toNat % 2 = 1

/-- InvalidGeometry, width before height (60_exceptions R193). -/
def checkGeometry (r : Registers) : Option Report :=
  if badDimension r.width then some ⟨.invalidGeometry, .width⟩
  else if badDimension r.height then some ⟨.invalidGeometry, .height⟩
  else none

/-- The command processes a sequence of `NFRAMES` frames (00_scope R16). -/
def isSequence : Instr → Bool
  | .deltaEnc | .deltaDec => true
  | .cscFwd | .cscInv | .diff | .acc => false

/-- EmptyInput, sequence commands only (60_exceptions R194). -/
def checkEmpty (i : Instr) (r : Registers) : Option Report :=
  if isSequence i && r.n = 0 then some ⟨.emptyInput, .nframes⟩ else none

/-- The command reads `LEN` (10_state R25). -/
def readsLength : Instr → Bool
  | .deltaDec => true
  | .cscFwd | .cscInv | .deltaEnc | .diff | .acc => false

/-- GeometryMismatch, `DELTA_DEC` only: inequality of the lengths (60_exceptions R195, 90_conflicts C1). -/
def checkLength (i : Instr) (r : Registers) : Option Report :=
  if readsLength i && r.len.toNat ≠ r.n * r.yuvBytes then some ⟨.geometryMismatch, .len⟩ else none

/-- The reference region is there and has the property. -/
def Footprint.referenceIs (f : Footprint) (p : Region → Bool) : Bool := f.reference.any p

/-- BusError: source, then reference, then destination out of range (60_exceptions R197). -/
def checkRange (i : Instr) (memSize : Nat) (r : Registers) : Option Report :=
  let f := footprint i r
  if !f.source.inRange memSize then some ⟨.busError, .src⟩
  else if f.referenceIs (fun g => !g.inRange memSize) then some ⟨.busError, .ref⟩
  else if !f.dest.inRange memSize then some ⟨.busError, .dst⟩
  else none

/-- Overlap of the destination with the source, then with the reference (60_exceptions R198). -/
def checkOverlap (i : Instr) (r : Registers) : Option Report :=
  let f := footprint i r
  if f.dest.overlaps f.source then some ⟨.overlap, .src⟩
  else if f.referenceIs f.dest.overlaps then some ⟨.overlap, .ref⟩
  else none

/-- The first failing check of a legal command, in the order of 60_exceptions R200; later checks are not evaluated. -/
def firstFault (i : Instr) (memSize : Nat) (r : Registers) : Option Report :=
  checkGeometry r <|> checkEmpty i r <|> checkLength i r <|> checkRange i memSize r <|> checkOverlap i r

/-- What a word that is no command reports (60_exceptions R191). -/
def illegalReport : Report := ⟨.illegalCommand, .cmd⟩

/-- The command that the register file, taken as that of a pending command, makes the engine perform: none if the word is
illegal or a check fails, for then no byte of memory is accessed (60_exceptions R201, 90_conflicts C7). -/
def liveCommand (memSize : Nat) (r : Registers) : Option Instr :=
  match decode r.cmd with
  | .command i => if (firstFault i memSize r).isNone then some i else none
  | .illegal _ => none

end Sys2Proof.Machine
end

