-- ==== Sys2Proof/Machine/Flags.lean ====
section
/-! DEFINITION. The only flags of the block, the three bits of `STATUS` (10_state R27, R32). -/

namespace Sys2Proof.Machine

/-- Bit 0: a command is pending. -/
def statusBusy (st : Word) : Bool := st.getLsbD 0

/-- Bit 1: the last accepted command completed without fault. -/
def statusDone (st : Word) : Bool := st.getLsbD 1

/-- Bit 2: a fault is latched. -/
def statusErr (st : Word) : Bool := st.getLsbD 2

/-- `BUSY <- 1`, `DONE <- 0`: what an accepted write to `CMD` does (10_state R37). -/
def statusIssued (st : Word) : Word := (st ||| 0b001) &&& ~~~0b010

/-- `DONE <- 1`, `BUSY <- 0`: completion without fault (10_state R40). -/
def statusSucceeded (st : Word) : Word := (st ||| 0b010) &&& ~~~0b001

/-- `ERR <- 1`, `BUSY <- 0`: completion with a fault (10_state R40, 60_exceptions R199). -/
def statusFaulted (st : Word) : Word := (st ||| 0b100) &&& ~~~0b001

/-- A command is pending (10_state R36). -/
def State.busy (s : State) : Bool := statusBusy s.regs.status

/-- The last accepted command succeeded (10_state R27). -/
def State.done (s : State) : Bool := statusDone s.regs.status

/-- A fault is latched (10_state R36). -/
def State.err (s : State) : Bool := statusErr s.regs.status

end Sys2Proof.Machine
end

