-- ==== Sys2Proof/Machine/Ops.lean ====
section
/-! DEFINITION. The named operations over memory and registers (00_scope R11), fault entry and the return from a fault
(60_exceptions R199, R202). -/

namespace Sys2Proof.Machine

/-- `M[a]` (00_scope R11): the listed byte, or what an unlisted address reads as. -/
def Memory.read (m : Memory) (a : Nat) : Byte :=
  match m with
  | []     => Memory.unlisted
  | c :: m => if c.1 = a then c.2 else Memory.read m a

/-- Puts a cell before the first cell of a higher address. -/
def Memory.place (m : Memory) (c : Host.Cell) : Memory :=
  match m with
  | []     => [c]
  | d :: m => if c.1 < d.1 then c :: d :: m else d :: Memory.place m c

/-- `M[a] <- b` (00_scope R11), keeping the canonical form. -/
def Memory.write (m : Memory) (a : Nat) (b : Byte) : Memory :=
  let rest := m.filter (fun c => c.1 != a)
  if b = Memory.unlisted then rest else Memory.place rest (a, b)

/-- Stores at `base + k`, for each `k < size`, the byte `f k` if there is one: how a region is written (00_scope R11's
`MemWrite` with the bytes given by their offset). -/
def Memory.store (m : Memory) (base size : Nat) (f : Nat → Option Byte) : Memory :=
  match size with
  | 0     => m
  | k + 1 =>
    let m' := Memory.store m base k f
    match f k with
    | some b => m'.write (base + k) b
    | none   => m'

/-- The memory of addresses `0 .. size - 1` with these contents (20_memory R60). -/
def Memory.ofBytes (size : Nat) (contents : Nat → Byte) : Memory := Memory.store [] 0 size (fun a => some (contents a))

/-- The machine after power-on and the hard reset that goes with it: what `State.reset` is, for any configuration and for
any power-on contents of the frame memory, "a free input" (70_reset_and_hazards R223). -/
def State.powerOn (config : Config) (contents : Nat → Byte) : State :=
  { State.reset with config := config, mem := Memory.ofBytes config.memSize contents }

/-- The offsets of the register map (10_state R23). -/
def Reg.offset : Reg → Word
  | .cmd     => 0x00
  | .status  => 0x04
  | .errcode => 0x08
  | .errinfo => 0x0C
  | .width   => 0x10
  | .height  => 0x14
  | .nframes => 0x18
  | .src     => 0x1C
  | .dst     => 0x20
  | .ref     => 0x24
  | .len     => 0x28
  | .ctrl    => 0x2C

/-- The register at an offset; "offsets `0x30` and above, and any offset not a multiple of 4, hold no register"
(10_state R23). -/
def Reg.ofOffset (off : Word) : Option Reg :=
  match off.toNat with
  | 0x00 => some .cmd
  | 0x04 => some .status
  | 0x08 => some .errcode
  | 0x0C => some .errinfo
  | 0x10 => some .width
  | 0x14 => some .height
  | 0x18 => some .nframes
  | 0x1C => some .src
  | 0x20 => some .dst
  | 0x24 => some .ref
  | 0x28 => some .len
  | 0x2C => some .ctrl
  | _    => none

/-- `x[NAME]` as the host reads it; `CTRL` has no storage and reads zero (10_state R22, R31). -/
def Registers.get (r : Registers) : Reg → Word
  | .cmd     => r.cmd
  | .status  => r.status
  | .errcode => r.errcode
  | .errinfo => r.errinfo
  | .width   => r.width
  | .height  => r.height
  | .nframes => r.nframes
  | .src     => r.src
  | .dst     => r.dst
  | .ref     => r.ref
  | .len     => r.len
  | .ctrl    => 0

/-- The seven operand registers (10_state R24). -/
def Reg.isOperand : Reg → Bool
  | .width | .height | .nframes | .src | .dst | .ref | .len => true
  | .cmd | .status | .errcode | .errinfo | .ctrl => false

/-- `x[NAME] <- v` for an operand register, every bit stored (10_state R24). A name that is none of the seven is left
alone: the host cannot write it this way (10_state R21). -/
def Registers.setOperand (r : Registers) (n : Reg) (v : Word) : Registers :=
  match n with
  | .width   => { r with width := v }
  | .height  => { r with height := v }
  | .nframes => { r with nframes := v }
  | .src     => { r with src := v }
  | .dst     => { r with dst := v }
  | .ref     => { r with ref := v }
  | .len     => { r with len := v }
  | .cmd | .status | .errcode | .errinfo | .ctrl => r

/-- The command word the engine takes: `CMD` itself, no fetch from memory (10_state R40, 20_memory R76). -/
def State.commandWord (s : State) : Word := s.regs.cmd

/-- The codes of `ERRCODE` (60_exceptions R190). -/
def ErrorKind.code : ErrorKind → Word
  | .invalidGeometry  => 1
  | .emptyInput       => 2
  | .corruptBlob      => 3
  | .geometryMismatch => 4
  | .illegalCommand   => 5
  | .busError         => 6
  | .overlap          => 7

/-- Fault entry (60_exceptions R199): the code, the offset of the register at fault, `ERR` set and `BUSY` cleared;
memory, `CMD` and the operand registers keep what they hold. The pending command being over, what the host touched
during it is forgotten (log entry 6). -/
def State.raise (s : State) (e : Report) : State :=
  { s with
    regs := { s.regs with
      errcode := e.kind.code
      errinfo := e.info.offset
      status  := statusFaulted s.regs.status }
    touched := [] }

/-- The return from a fault, the only one a host has short of a hard reset (60_exceptions R202): every register back to
its reset value, the frame memory untouched (70_reset_and_hazards R221). -/
def State.softReset (s : State) : State := { s with regs := .reset }

/-- Completion without fault (10_state R40): `DONE` set and `BUSY` cleared. -/
def State.succeed (s : State) : State :=
  { s with
    regs := { s.regs with status := statusSucceeded s.regs.status }
    touched := [] }

end Sys2Proof.Machine
end

