-- ==== Sys2Proof/Machine/Completion.lean ====
section
/-! DEFINITION. The completion step of a legal command (10_state R40), shared by all six: the checks, then either fault
entry or the whole memory effect at once. A command is a function from the bytes of its input regions to the bytes of its
destination region (20_memory R78), given here as the byte at each offset. -/

namespace Sys2Proof.Machine

/-- What a command writes: the byte at each offset of its destination region, from its configuration, its registers and
the memory it reads, given as the byte at each address. -/
abbrev Effect := Config → Registers → (Nat → Byte) → Nat → Byte

/-- The host has made byte `k` of the pending command's destination unspecified (70_reset_and_hazards R225). -/
def State.disturbed (s : State) (i : Instr) (k : Nat) : Bool := s.touched.any (fun a => disturbedBy i s.regs a k)

/-- Writes the whole destination region of command `i` (20_memory R63). Every read sees the memory as it was when the
completion step began (20_memory R73). A byte the host has disturbed is a free byte (R225, log entry 6); with an obedient
host there is none. -/
def State.storeResult (s : State) (i : Instr) (effect : Effect) : State :=
  let d := (footprint i s.regs).dest
  { s with
    mem := s.mem.store d.base d.size (fun k =>
      some (if s.disturbed i k then Config.freeByte (s.freeCount + k)
            else effect s.config s.regs s.mem.read k))
    freeCount := if s.touched.isEmpty then s.freeCount else s.freeCount + d.size }

/-- The completion step of a legal command (10_state R40): the first failing check enters its fault, otherwise the memory
effect is performed and `DONE` is set. -/
def complete (i : Instr) (effect : Effect) (s : State) : Host.Outcome State Fault Refusal :=
  match firstFault i s.config.memSize s.regs with
  | some e => .next (s.raise e)
  | none   => .next ((s.storeResult i effect).succeed)

end Sys2Proof.Machine
end

