-- ==== Sys2Proof/Machine/Colour.lean ====
section
/-! DEFINITION. The colour-space transform commands `CSC_FWD` and `CSC_INV` (40_colour_transform). -/

namespace Sys2Proof.Machine

/-- Byte `k` of the planar frame that `CSC_FWD` writes: the planes `Y`, `U`, `V` one after another (20_memory R65), each
sample from its pixel (40_colour_transform R116, R117). -/
def cscFwdByte (c : Config) (r : Registers) (rd : Nat → Byte) (k : Nat) : Byte :=
  let p := fwdPixel r k
  let red   := rd (rgbAddr r.w r.src.toNat p.1 p.2 0)
  let green := rd (rgbAddr r.w r.src.toNat p.1 p.2 1)
  let blue  := rd (rgbAddr r.w r.src.toNat p.1 p.2 2)
  if k < r.w * r.h then fwdY c.coefFwd red green blue
  else if k < r.w * r.h + r.cw * r.ch then fwdU c.coefFwd red green blue
  else fwdV c.coefFwd red green blue

/-- Byte `k` of the RGB24 frame that `CSC_INV` writes: sample `k mod 3` of pixel `k div 3` (20_memory R64), chroma by
nearest neighbour (40_colour_transform R120, R125). -/
def cscInvByte (c : Config) (r : Registers) (rd : Nat → Byte) (k : Nat) : Byte :=
  let p := invPixel r k
  let y := rd (yAddr r.w r.src.toNat p.1 p.2)
  let u := rd (uAddr r.w r.h r.src.toNat (p.1 / 2) (p.2 / 2))
  let v := rd (vAddr r.w r.h r.src.toNat (p.1 / 2) (p.2 / 2))
  match k % 3 with
  | 0 => invR c.coefInv y u v
  | 1 => invG c.coefInv y u v
  | _ => invB c.coefInv y u v

/-- `CSC_FWD`, forward colour transform of one frame (40_colour_transform R117). -/
def execCscFwd (s : State) : Host.Outcome State Fault Refusal := complete .cscFwd cscFwdByte s

/-- `CSC_INV`, inverse colour transform of one frame (40_colour_transform R125). -/
def execCscInv (s : State) : Host.Outcome State Fault Refusal := complete .cscInv cscInvByte s

end Sys2Proof.Machine
end

