-- ==== Sys2Proof/Machine/Delta.lean ====
section
/-! DEFINITION. The delta coder commands `DELTA_ENC`, `DELTA_DEC`, `DIFF` and `ACC` (41_delta_coder). A frame is
`YUV_BYTES` bytes and its planes play no part (R140). -/

namespace Sys2Proof.Machine

/-- Byte `k` of the delta sequence that `DELTA_ENC` writes: the keyframe verbatim, later frames the difference from the
frame before, both read from the source (41_delta_coder R145, R151). -/
def deltaEncByte (_ : Config) (r : Registers) (rd : Nat → Byte) (k : Nat) : Byte :=
  let s := r.src.toNat
  if k < r.yuvBytes then rd (s + k) else sub8 (rd (s + k)) (rd (s + k - r.yuvBytes))

/-- The running sum of `DELTA_DEC` at one position of a frame: the bytes at `a`, `a + f`, .. , `a + i*f` added up with
`add8` (41_delta_coder R152, where the sum is the local `acc`). -/
def runningSum (rd : Nat → Byte) (a f : Nat) : Nat → Byte
  | 0     => add8 (rd a) 0
  | i + 1 => add8 (rd (a + (i + 1) * f)) (runningSum rd a f i)

/-- Byte `k` of the YUV sequence that `DELTA_DEC` writes, from the source region only (41_delta_coder R152, 90_conflicts
C9). -/
def deltaDecByte (_ : Config) (r : Registers) (rd : Nat → Byte) (k : Nat) : Byte :=
  let f := r.yuvBytes
  runningSum rd (r.src.toNat + k % f) f (k / f)

/-- Byte `k` of the delta frame that `DIFF` writes (41_delta_coder R147). -/
def diffByte (_ : Config) (r : Registers) (rd : Nat → Byte) (k : Nat) : Byte :=
  sub8 (rd (r.src.toNat + k)) (rd (r.ref.toNat + k))

/-- Byte `k` of the frame that `ACC` writes (41_delta_coder R150). -/
def accByte (_ : Config) (r : Registers) (rd : Nat → Byte) (k : Nat) : Byte :=
  add8 (rd (r.src.toNat + k)) (rd (r.ref.toNat + k))

/-- `DELTA_ENC`, the delta sequence of `N` YUV frames (41_delta_coder R151). -/
def execDeltaEnc (s : State) : Host.Outcome State Fault Refusal := complete .deltaEnc deltaEncByte s

/-- `DELTA_DEC`, the YUV frames of a delta sequence (41_delta_coder R152). -/
def execDeltaDec (s : State) : Host.Outcome State Fault Refusal := complete .deltaDec deltaDecByte s

/-- `DIFF`, one delta frame from two YUV frames (41_delta_coder R147). -/
def execDiff (s : State) : Host.Outcome State Fault Refusal := complete .diff diffByte s

/-- `ACC`, one YUV frame from a delta frame and the frame before (41_delta_coder R150). -/
def execAcc (s : State) : Host.Outcome State Fault Refusal := complete .acc accByte s

end Sys2Proof.Machine
end

