-- ==== Sys2Proof/Machine/Dispatch.lean ====
section
/-! DEFINITION. One arm per command, one direct call of its meaning. -/

namespace Sys2Proof.Machine

def exec (i : Instr) (s : State) : Host.Outcome State Fault Refusal :=
  match i with
  | .cscFwd => Sys2Proof.Machine.execCscFwd s
  | .cscInv => Sys2Proof.Machine.execCscInv s
  | .deltaEnc => Sys2Proof.Machine.execDeltaEnc s
  | .deltaDec => Sys2Proof.Machine.execDeltaDec s
  | .diff => Sys2Proof.Machine.execDiff s
  | .acc => Sys2Proof.Machine.execAcc s

end Sys2Proof.Machine
end

