-- ==== Sys2Proof/Machine/HostPort.lean ====
section
/-! DEFINITION. What the host does to the block (00_scope R8): register transactions (10_state R21, R22, R37 to R39),
byte accesses to the frame memory (20_memory R61, 70_reset_and_hazards R225) and the reset input (R220, R222). -/

namespace Sys2Proof.Machine

/-- Command issue, a write to `CMD` while not pending (10_state R37): lost while a fault is latched (R39), accepted
otherwise. Nothing is checked. An accepted command starts an interval of 70_reset_and_hazards R225. -/
def State.issue (s : State) (v : Word) : State :=
  if s.err then s
  else
    let r := { s.regs with cmd := v, status := statusIssued s.regs.status }
    { s with regs := r, unpolled := r :: s.unpolled, touched := [] }

/-- A write to `CTRL`: bit 0 set is a soft reset, the other bits are ignored (10_state R31, 70_reset_and_hazards R221). -/
def State.writeCtrl (s : State) (v : Word) : State := if v.getLsbD 0 then s.softReset else s

/-- `RegWrite(off, v)` at an aligned offset, in the order of tests of 10_state R21. -/
def State.regWrite (s : State) (off v : Word) : State :=
  match Reg.ofOffset off with
  | none => s
  | some n =>
    if s.busy then s
    else match n with
      | .ctrl => s.writeCtrl v
      | .cmd  => s.issue v
      | .status | .errcode | .errinfo => s
      | .width | .height | .nframes | .src | .dst | .ref | .len => { s with regs := s.regs.setOperand n v }

/-- The value `RegRead(off)` receives at an aligned offset: the register's current value, zero where there is none
(10_state R22). -/
def State.regValue (s : State) (off : Word) : Word :=
  match Reg.ofOffset off with
  | some n => s.regs.get n
  | none   => 0

/-- `RegRead(off)` at an aligned offset (10_state R22): no effect on the block. A read of `STATUS` that returns `BUSY = 0`
ends every interval of 70_reset_and_hazards R225. -/
def State.regRead (s : State) (off : Word) : State :=
  { s with
    regData  := s.regValue off
    unpolled := if Reg.ofOffset off = some .status && !s.busy then [] else s.unpolled }

/-- The address lies in the destination region of the command of this register file, whether or not its checks pass: R225
names the regions of every pending command. A word that is no command has no regions (20_memory R63). -/
def inDest (r : Registers) (a : Nat) : Bool :=
  match decode r.cmd with
  | .command i => (footprint i r).dest.holds a
  | .illegal _ => false

/-- The address lies in the destination region of a command the host has not yet seen completed (R225). -/
def State.inOpenDest (s : State) (a : Nat) : Bool := s.unpolled.any (fun r => inDest r a)

/-- The host reads one byte (20_memory R61); inside such a destination region "the value read is unspecified" (R225), a
free byte. -/
def State.hostRead (s : State) (a : Nat) : State :=
  if s.inOpenDest a then { s with memData := Config.freeByte s.freeCount, freeCount := s.freeCount + 1 }
  else { s with memData := s.mem.read a }

/-- The effect of a host write to `a` on the destination bytes of one command that it has not yet seen completed: those
that are `a` or depend on it become free bytes (70_reset_and_hazards R225). Of a command with a failing check no byte
depends on an input, for it computes nothing (60_exceptions R201): only `a` itself can be concerned (log entry 6). -/
def State.scramble (s : State) (a : Nat) (r : Registers) : State :=
  match liveCommand s.config.memSize r with
  | none   =>
    if inDest r a then
      { s with mem := s.mem.write a (Config.freeByte s.freeCount), freeCount := s.freeCount + 1 }
    else s
  | some i =>
    let d := (footprint i r).dest
    { s with
      mem := s.mem.store d.base d.size (fun k =>
        if disturbedBy i r a k then some (Config.freeByte (s.freeCount + k)) else none)
      freeCount := s.freeCount + d.size }

/-- The host writes one byte (20_memory R61). A host that keeps its hands off the regions of a command under way changes
that byte and nothing else; otherwise R225 (log entry 6). -/
def State.hostWrite (s : State) (a : Nat) (b : Byte) : State :=
  let s' := { s with
    mem := s.mem.write a b
    touched := if s.busy then a :: s.touched else s.touched }
  s.unpolled.foldl (fun t r => t.scramble a r) s'

/-- A pending command abandoned by a hard reset: every byte of its destination region becomes a free byte; no byte changes
if its checks would have failed (70_reset_and_hazards R222). -/
def State.abandon (s : State) : State :=
  match liveCommand s.config.memSize s.regs with
  | none   => s
  | some i =>
    let d := (footprint i s.regs).dest
    { s with
      mem := s.mem.store d.base d.size (fun k => some (Config.freeByte (s.freeCount + k)))
      freeCount := s.freeCount + d.size }

/-- The reset input asserted and released (70_reset_and_hazards R220): registers zero, engine idle, no fault latched. It
may come at any time; a pending command is abandoned (R222). The intervals of R225 go on, since R225 ends them by a `STATUS`
read and by nothing else (log entries 6, 7). -/
def State.hardReset (s : State) : State :=
  let s' := if s.busy then s.abandon else s
  { s' with regs := .reset, touched := [] }

/-- A register offset that is a multiple of 4 (10_state R21). -/
def aligned (off : Word) : Bool := off.toNat % 4 = 0

/-- One transaction of the host (00_scope R8), atomic (20_memory R73). -/
def performHost (h : HostAction) (s : State) : Host.Outcome State Fault Refusal :=
  match h with
  | .regWrite off v =>
    if aligned off then .next (s.regWrite off v) else .refused (.unalignedRegisterAccess off)
  | .regRead off =>
    if aligned off then .next (s.regRead off) else .refused (.unalignedRegisterAccess off)
  | .memWrite a b =>
    if a < s.config.memSize then .next (s.hostWrite a b) else .fault (.hostAddressOutsideMemory a)
  | .memRead a =>
    if a < s.config.memSize then .next (s.hostRead a) else .fault (.hostAddressOutsideMemory a)
  | .hardReset => .next s.hardReset

end Sys2Proof.Machine
end

