-- ==== Sys2Proof/Machine/Step.lean ====
section
/-! DEFINITION. One step of the whole system: the next event of the agenda happens (20_memory R73). With an empty agenda
a pending command completes, so that every pending command does (70_reset_and_hazards R229), and an idle or faulted block
waits (10_state R36). -/

namespace Sys2Proof.Machine

/-- The engine's turn, its completion step, "enabled exactly when `BUSY = 1`" (10_state R40): the command word is decoded
and the command executed, or IllegalCommand raised (60_exceptions R191). Nothing happens when no command is pending. -/
def engineStep (s : State) : Host.Outcome State Fault Refusal :=
  if s.busy then
    match decode s.commandWord with
    | .command i => exec i s
    | .illegal _ => .next (s.raise illegalReport)
  else .next s

/-- The state with the rest of the agenda to come. -/
def State.withAgenda (s : State) (rest : List Event) : State := { s with agenda := rest }

def step (s : State) : Host.Outcome State Fault Refusal :=
  match s.agenda with
  | [] => engineStep s
  | .engine :: rest => engineStep (s.withAgenda rest)
  | .host h :: rest => performHost h (s.withAgenda rest)

/-- The state with no command pending and no fault latched, as an issue needs (10_state R37, R39). -/
def State.readyToIssue (s : State) : State :=
  { s with regs := { s.regs with status := 0, errcode := 0, errinfo := 0 } }

/-- `s` with the command word `w` (its bits above `nbits` zero) pending and the engine's turn next, so that the very next
step decodes and runs it. A command is not fetched from memory: it is the word in `CMD` while `BUSY = 1` (10_state R40,
20_memory R76), so this is what an accepted write of `w` to `CMD` leaves, with the engine first on the agenda (log entry
11). -/
def State.withFetchWord (s : State) (nbits w : Nat) : State :=
  (s.readyToIssue.issue (BitVec.ofNat 32 (w % 2 ^ nbits))).withAgenda (.engine :: s.agenda)

end Sys2Proof.Machine
end

