-- ==== Sys2Proof/Safety.lean ====
section
/-! DEFINITION. What statements are made in terms of: the conditions under which a command executes without fault, as a
host reads them in the spec (70_reset_and_hazards R224, item 2), what a completion step leaves alone, and the invariant of
the whole system. -/

namespace Sys2Proof.Machine

/-- The two regions share no address (20_memory R63). -/
def Region.Apart (a b : Region) : Prop := ∀ x, ¬ (a.holds x = true ∧ b.holds x = true)

/-- `WIDTH` and `HEIGHT` even and non-zero (70_reset_and_hazards R224). -/
structure GeometryOk (r : Registers) : Prop where
  width_ok  : 0 < r.w ∧ r.w % 2 = 0
  height_ok : 0 < r.h ∧ r.h % 2 = 0

/-- The sizes a command works on are legal: geometry, at least one frame for a sequence command, and for `DELTA_DEC` the
length of the sequence (70_reset_and_hazards R224). -/
structure Shaped (i : Instr) (r : Registers) : Prop where
  geometry  : GeometryOk r
  frames_ok : i = .deltaEnc ∨ i = .deltaDec → 1 ≤ r.n
  length_ok : i = .deltaDec → r.len.toNat = r.n * r.yuvBytes

/-- Every region of the command is in range (20_memory R63, 70_reset_and_hazards R224). -/
structure RegionsInRange (i : Instr) (memSize : Nat) (r : Registers) : Prop where
  source_in : (footprint i r).source.base + (footprint i r).source.size ≤ memSize
  ref_in    : ∀ g, (footprint i r).reference = some g → g.base + g.size ≤ memSize
  dest_in   : (footprint i r).dest.base + (footprint i r).dest.size ≤ memSize

/-- The destination overlaps no input (70_reset_and_hazards R224). -/
structure DestApart (i : Instr) (r : Registers) : Prop where
  source_away : (footprint i r).dest.Apart (footprint i r).source
  ref_away    : ∀ g, (footprint i r).reference = some g → (footprint i r).dest.Apart g

/-- Every register a command reads has a valid value (70_reset_and_hazards R224, item 2). Nothing is asked of registers
the command does not read (10_state R25). -/
structure Ready (i : Instr) (memSize : Nat) (r : Registers) : Prop where
  shaped   : Shaped i r
  in_range : RegionsInRange i memSize r
  apart    : DestApart i r

/-- `Ready` for the registers and the memory of a state. -/
def State.ReadyFor (s : State) (i : Instr) : Prop := Ready i s.config.memSize s.regs

/-- The host has written none of these addresses while the command was pending (70_reset_and_hazards R225). -/
def State.Clear (s : State) (l : List Nat) : Prop := ∀ a ∈ l, a ∉ s.touched

/-- What a completion step leaves alone, fault or not: every register but `STATUS`, `ERRCODE` and `ERRINFO`, the reserved
bits of `STATUS`, the configuration, and all that is the host's. -/
structure Framed (s t : State) : Prop where
  regs_kept     : ∀ n, n ≠ .status → n ≠ .errcode → n ≠ .errinfo → t.regs.get n = s.regs.get n
  reserved_kept : ∀ i, 3 ≤ i → t.regs.status.getLsbD i = s.regs.status.getLsbD i
  config_kept   : t.config = s.config
  agenda_kept   : t.agenda = s.agenda
  reads_kept    : t.regData = s.regData ∧ t.memData = s.memData
  polls_kept    : t.unpolled = s.unpolled

/-- From `s` the completion step has entered a fault with this code and this register offset (60_exceptions R199). -/
structure Faulted (s t : State) (code info : Word) : Prop where
  framed  : Framed s t
  errcode : t.regs.errcode = code
  errinfo : t.regs.errinfo = info
  err     : t.err = true
  idle    : t.busy = false
  done    : t.done = s.done
  mem     : t.mem = s.mem

/-- From `s` the completion step of command `i` has succeeded (10_state R40), leaving every byte outside the destination
region alone (20_memory R63). -/
structure Succeeded (i : Instr) (s t : State) : Prop where
  framed  : Framed s t
  errcode : t.regs.errcode = s.regs.errcode
  errinfo : t.regs.errinfo = s.regs.errinfo
  err     : t.err = s.err
  idle    : t.busy = false
  done    : t.done = true
  mem     : ∀ a, (footprint i s.regs).dest.holds a = false → t.mem.read a = s.mem.read a

/-- The reachable values of `STATUS` (10_state R27). -/
def legalStatus : List Word := [0b000, 0b001, 0b010, 0b100]

/-- The pairs of `ERRCODE` and `ERRINFO` the block can report (60_exceptions R190, R196). -/
def reportable : List (Word × Word) :=
  [(1, 0x10), (1, 0x14), (2, 0x18), (4, 0x28), (5, 0x00), (6, 0x1C), (6, 0x24), (6, 0x20), (7, 0x1C), (7, 0x24)]

/-- What holds of every state a run reaches. -/
structure Inv (s : State) : Prop where
  /-- The configuration is legal (00_scope R6). -/
  config_wf  : s.config.wf = true
  /-- `STATUS` has one of its four reachable values (10_state R27, R43). -/
  status_ok  : s.regs.status ∈ legalStatus
  /-- No fault latched: `ERRCODE` and `ERRINFO` are zero (10_state R28, R29). -/
  no_fault   : s.err = false → s.regs.errcode = 0 ∧ s.regs.errinfo = 0
  /-- A latched fault is one the block can report (60_exceptions R190). -/
  fault_ok   : s.err = true → (s.regs.errcode, s.regs.errinfo) ∈ reportable
  /-- The memory is in canonical form. -/
  mem_wf     : Memory.wf s.mem
  /-- Every listed byte has an address that exists (20_memory R60). -/
  mem_in     : ∀ c ∈ s.mem, c.1 < s.config.memSize
  /-- The pending command is the newest the host has not seen completed, with the registers of its issue (10_state R38). -/
  pending    : s.busy = true → s.unpolled.head? = some s.regs
  /-- Nothing is remembered of host writes when no command is pending. -/
  untouched  : s.busy = false → s.touched = []

end Sys2Proof.Machine
end

