-- ==== Sys2Proof/Certificates/Slice0/Obligations.lean ====
section
/-! DEFINITION. The statements about the block, in the order of OBLIGATIONS.json. -/

open Sys2Proof Sys2Proof.Machine

/-! ### Encoding -/

/-- 95_test_vectors 2.6 and 30_encoding R92, R93: the six words and some illegal ones, among them zero and a command's
word with a reserved bit set. -/
def Obligations.DecodeSampleWords : Prop :=
  decode 0x00000001 = .command .cscFwd ∧ decode 0x00000002 = .command .cscInv ∧
  decode 0x00000003 = .command .deltaEnc ∧ decode 0x00000004 = .command .deltaDec ∧
  decode 0x00000005 = .command .diff ∧ decode 0x00000006 = .command .acc ∧
  decode 0x00000000 = .illegal (.unassignedOp 0) ∧ decode 0x00000007 = .illegal (.unassignedOp 7) ∧
  decode 0x00000101 = .illegal (.reservedBits 1) ∧ decode 0xFFFFFFFF = .illegal (.reservedBits 0xFFFFFF)

/-- 30_encoding R92, the table: a word selects a command exactly when the whole word is that command's, and every word
that is none of the six is illegal (R93). So decoding an encoded command gives it back, and no bit of the word is
ignored. -/
def Obligations.DecodeEncodeAgree : Prop :=
  (encode .cscFwd = 0x00000001 ∧ encode .cscInv = 0x00000002 ∧ encode .deltaEnc = 0x00000003 ∧
    encode .deltaDec = 0x00000004 ∧ encode .diff = 0x00000005 ∧ encode .acc = 0x00000006) ∧
  (∀ (w : Word) (i : Instr), decode w = .command i ↔ w = encode i) ∧
  (∀ w : Word, (∀ i : Instr, w ≠ encode i) ↔ ∃ r, decode w = .illegal r)

/-! ### Reset -/

/-- 10_state R41: after either reset every register holds zero, the engine is idle and no command is pending; a soft reset
writes no byte of memory, and neither does a hard reset when no command is pending. -/
def Obligations.ResetValues : Prop :=
  (∀ n : Reg, State.reset.regs.get n = 0) ∧ State.reset.busy = false ∧
  (∀ s : State, ∃ t, performHost .hardReset s = .next t ∧ (∀ n : Reg, t.regs.get n = 0) ∧ t.busy = false ∧
    (s.busy = false → t.mem = s.mem)) ∧
  (∀ (s : State) (v : Word), s.busy = false → v.getLsbD 0 = true →
    ∃ t, performHost (.regWrite 0x2C v) s = .next t ∧ (∀ n : Reg, t.regs.get n = 0) ∧ t.busy = false ∧ t.mem = s.mem)

/-- The invariant holds at reset. The memory size and the memory contents of `State.reset` are the model's own choice (log
entries 3, 4); the invariant asks nothing of them but that the size is legal and nothing is listed out of range. -/
def Obligations.ResetInv : Prop := Inv State.reset

/-- 70_reset_and_hazards R223: for every configuration and every power-on contents of the frame memory there is a start
state that holds exactly those bytes, with every register zero and nothing pending; it satisfies the invariant if the
configuration is legal, and `State.reset` is the one of the model's own choice (log entries 3, 4). -/
def Obligations.PowerOnFree : Prop :=
  (∀ (config : Config) (contents : Nat → Byte),
    let s := State.powerOn config contents
    (∀ a, a < config.memSize → s.mem.read a = contents a) ∧ (∀ n : Reg, s.regs.get n = 0) ∧ s.busy = false ∧
      s.config = config ∧ (config.wf = true → Inv s)) ∧
  State.reset = State.powerOn (.document 0x1000) (fun _ => Memory.unlisted)

/-- 70_reset_and_hazards R221: writing `CTRL` with bit 0 set while not pending zeroes every register and changes nothing
else; with bit 0 clear it does nothing, and while pending it is ignored. Idle and faulted phases alike. -/
def Obligations.SoftReset : Prop :=
  ∀ (s : State) (v : Word),
    (s.busy = false → v.getLsbD 0 = true →
      ∃ t, performHost (.regWrite 0x2C v) s = .next t ∧ (∀ n : Reg, t.regs.get n = 0) ∧ t = { s with regs := t.regs }) ∧
    (s.busy = true ∨ v.getLsbD 0 = false → performHost (.regWrite 0x2C v) s = .next s)

/-- 70_reset_and_hazards R222: a hard reset abandons the pending command, which reports neither `DONE` nor `ERR`; bytes
outside its destination region are unchanged, and no byte changes if its word is illegal or its checks would have
failed. -/
def Obligations.HardResetOfPending : Prop :=
  ∀ s : State, s.busy = true → ∃ t, performHost .hardReset s = .next t ∧
    t.busy = false ∧ t.done = false ∧ t.err = false ∧ t.config = s.config ∧
    (∀ i, decode s.regs.cmd = .command i → s.ReadyFor i →
      ∀ a, (footprint i s.regs).dest.holds a = false → t.mem.read a = s.mem.read a) ∧
    ((∀ i, decode s.regs.cmd = .command i → ¬ s.ReadyFor i) → t.mem = s.mem)

/-! ### The register port -/

/-- 10_state R37: a write to `CMD` has no effect while pending or faulted; otherwise it is accepted whatever the word and
the operands are: `CMD` holds it, `BUSY` is set, `DONE` is cleared, every other register and all of memory are kept. -/
def Obligations.CommandIssue : Prop :=
  ∀ (s : State) (v : Word),
    (s.busy = true ∨ s.err = true → performHost (.regWrite 0x00 v) s = .next s) ∧
    (s.busy = false → s.err = false →
      ∃ t, performHost (.regWrite 0x00 v) s = .next t ∧ t.regs.cmd = v ∧ t.busy = true ∧ t.done = false ∧ t.err = false ∧
        (∀ n, n ≠ .cmd → n ≠ .status → t.regs.get n = s.regs.get n) ∧
        (∀ i, 3 ≤ i → t.regs.status.getLsbD i = s.regs.status.getLsbD i) ∧
        t.mem = s.mem ∧ t.config = s.config ∧ t.agenda = s.agenda)

/-- 10_state R38: while `BUSY = 1` every register write, to any (aligned) offset, has no effect; so every step of a pending
block but a hard reset keeps the command word and the operand registers, its completion step among them. -/
def Obligations.BusyIgnoresWrites : Prop :=
  (∀ (s : State) (off v : Word), s.busy = true → off.toNat % 4 = 0 → performHost (.regWrite off v) s = .next s) ∧
  (∀ s t : State, s.busy = true → step s = .next t → (∀ rest, s.agenda ≠ .host .hardReset :: rest) →
    t.regs.cmd = s.regs.cmd ∧ ∀ n : Reg, n.isOperand = true → t.regs.get n = s.regs.get n)

/-- 10_state R39: while a fault is latched a write to `CMD` has no effect, operand writes are performed and leave `CMD`,
`STATUS`, `ERRCODE`, `ERRINFO` alone, and a write of 1 to `CTRL.SRST` clears the fault. -/
def Obligations.FaultKeptUntilReset : Prop :=
  ∀ (s : State) (v : Word), s.err = true → s.busy = false →
    performHost (.regWrite 0x00 v) s = .next s ∧
    (∀ n : Reg, n.isOperand = true → ∃ t, performHost (.regWrite n.offset v) s = .next t ∧ t.regs.get n = v ∧
      t.regs.cmd = s.regs.cmd ∧ t.regs.status = s.regs.status ∧ t.regs.errcode = s.regs.errcode ∧
      t.regs.errinfo = s.regs.errinfo) ∧
    (v.getLsbD 0 = true → ∃ t, performHost (.regWrite 0x2C v) s = .next t ∧ t.err = false ∧ t.regs.errcode = 0 ∧
      t.regs.errinfo = 0)

/-- 10_state R24: the host writes an operand register whenever `BUSY = 0`: the value written is the value it then holds,
all 32 bits of it, no other register changes and nothing else does. It reads one at any time; and no turn of the engine,
whatever command is pending, writes one. -/
def Obligations.OperandWrite : Prop :=
  ∀ n : Reg, n.isOperand = true →
    (∀ (s : State) (v : Word), s.busy = false →
      ∃ t, performHost (.regWrite n.offset v) s = .next t ∧ t.regs.get n = v ∧
        (∀ m, m ≠ n → t.regs.get m = s.regs.get m) ∧ t = { s with regs := t.regs }) ∧
    (∀ s : State, ∃ t, performHost (.regRead n.offset) s = .next t ∧ t.regData = s.regs.get n) ∧
    (∀ s t : State, engineStep s = .next t → t.regs.get n = s.regs.get n)

/-- 10_state R21: a write to a read-only register or to an (aligned) offset that holds no register has no effect, whatever
the phase. -/
def Obligations.WritesWithoutEffect : Prop :=
  ∀ (s : State) (off v : Word), off.toNat % 4 = 0 →
    (off = 0x04 ∨ off = 0x08 ∨ off = 0x0C ∨ ∀ n : Reg, off ≠ n.offset) → performHost (.regWrite off v) s = .next s

/-- 10_state R22: a read at an aligned offset gives the register's current value, zero for `CTRL` and where there is no
register, in every phase, with no side effect on the block. -/
def Obligations.RegisterRead : Prop :=
  ∀ (s : State) (off : Word), off.toNat % 4 = 0 →
    ∃ t, performHost (.regRead off) s = .next t ∧
      (∀ n : Reg, off = n.offset → t.regData = s.regs.get n) ∧ (off = 0x2C → t.regData = 0) ∧
      ((∀ n : Reg, off ≠ n.offset) → t.regData = 0) ∧
      t.regs = s.regs ∧ t.mem = s.mem ∧ t.config = s.config ∧ t.agenda = s.agenda ∧ t.memData = s.memData

/-- The model's choice for what 10_state R21 leaves undefined (93 U9, log entry 10): a register access at an offset that is
not a multiple of 4 is refused by name, read or write. -/
def Obligations.UnalignedRefused : Prop :=
  ∀ (s : State) (off v : Word), off.toNat % 4 ≠ 0 →
    performHost (.regWrite off v) s = .refused (.unalignedRegisterAccess off) ∧
    performHost (.regRead off) s = .refused (.unalignedRegisterAccess off)

/-! ### Host accesses to the frame memory -/

/-- 20_memory R61, 70_reset_and_hazards R225: a host write at an address that exists changes no register and no byte but its
own and those of destination regions of commands under way; the byte written is there unless it lies in the destination of
such a command; and an address outside the three regions of every such command may be written freely: that byte is written
and no other changes. Of a command whose checks fail only the destination counts, and only for the byte written: nothing
depends on its inputs, the model's deduction from 60_exceptions R201 (log entry 6). -/
def Obligations.HostByteWrite : Prop :=
  ∀ (s : State) (a : Nat) (b : Byte), a < s.config.memSize →
    ∃ t, performHost (.memWrite a b) s = .next t ∧ t.regs = s.regs ∧ t.config = s.config ∧ t.agenda = s.agenda ∧
      (∀ x, x ≠ a → (∀ r ∈ s.unpolled, ∀ i, liveCommand s.config.memSize r = some i →
          (footprint i r).dest.holds x = false) → t.mem.read x = s.mem.read x) ∧
      ((∀ r ∈ s.unpolled, ∀ i, decode r.cmd = .command i → (footprint i r).dest.holds a = false) → t.mem.read a = b) ∧
      ((∀ r ∈ s.unpolled, ∀ i, decode r.cmd = .command i → (footprint i r).dest.holds a = false) →
        (∀ r ∈ s.unpolled, ∀ i, liveCommand s.config.memSize r = some i → (footprint i r).source.holds a = false ∧
          ∀ g, (footprint i r).reference = some g → g.holds a = false) →
        ∀ x, t.mem.read x = if x = a then b else s.mem.read x)

/-- 20_memory R61, 70_reset_and_hazards R225: a host read at an address that exists changes no register and no byte, and
outside the destination regions of commands under way, whether or not their checks pass, it gives the byte. Inside one the
value read is unspecified, and nothing is claimed of it. -/
def Obligations.HostByteRead : Prop :=
  ∀ (s : State) (a : Nat), a < s.config.memSize →
    ∃ t, performHost (.memRead a) s = .next t ∧ t.regs = s.regs ∧ t.mem = s.mem ∧ t.config = s.config ∧
      t.agenda = s.agenda ∧
      ((∀ r ∈ s.unpolled, ∀ i, decode r.cmd = .command i → (footprint i r).dest.holds a = false) →
        t.memData = s.mem.read a)

/-- What `State.touched` holds, on which the results below rest (70_reset_and_hazards R225; the bookkeeping is the model's,
log entry 6): nothing when a command is accepted, then exactly the addresses the host writes while it is pending; no other
transaction on a pending block adds or drops one, and a hard reset and the engine's turn end with none. -/
def Obligations.TouchedIsWhatHostWrote : Prop :=
  (∀ (s : State) (v : Word), s.busy = false → s.err = false →
    ∃ t, performHost (.regWrite 0x00 v) s = .next t ∧ t.touched = []) ∧
  (∀ (s : State) (a : Nat) (b : Byte), a < s.config.memSize →
    ∃ t, performHost (.memWrite a b) s = .next t ∧ t.touched = if s.busy then a :: s.touched else s.touched) ∧
  (∀ (h : HostAction) (s t : State), s.busy = true → performHost h s = .next t → (∀ a b, h ≠ .memWrite a b) →
    h ≠ .hardReset → t.touched = s.touched) ∧
  (∀ s : State, ∃ t, performHost .hardReset s = .next t ∧ t.touched = []) ∧
  (∀ s t : State, s.busy = true → engineStep s = .next t → t.touched = [])

/-- The interval of 70_reset_and_hazards R225, as `State.unpolled` keeps it (the bookkeeping is the model's, log entry 6): an
accepted command opens one with the registers of its issue; a `STATUS` read that returns `BUSY = 0` ends all, and nothing
else opens or ends one. After such a read every byte of memory reads as what it holds (20_memory R74) and may be written
freely. -/
def Obligations.PollEndsInterval : Prop :=
  (∀ (s : State) (v : Word), s.busy = false → s.err = false →
    ∃ t, performHost (.regWrite 0x00 v) s = .next t ∧ t.unpolled = t.regs :: s.unpolled) ∧
  (∀ s : State, s.busy = false →
    ∃ t, performHost (.regRead 0x04) s = .next t ∧ statusBusy t.regData = false ∧ t.unpolled = [] ∧ t.mem = s.mem ∧
      ∀ a, a < s.config.memSize →
        (∃ u, performHost (.memRead a) t = .next u ∧ u.memData = s.mem.read a) ∧
        ∀ b : Byte, ∃ u, performHost (.memWrite a b) t = .next u ∧
          ∀ x, u.mem.read x = if x = a then b else s.mem.read x) ∧
  (∀ (h : HostAction) (s t : State), performHost h s = .next t → (∀ v, h ≠ .regWrite 0x00 v) →
    s.busy = true ∨ h ≠ .regRead 0x04 → t.unpolled = s.unpolled) ∧
  (∀ s t : State, engineStep s = .next t → t.unpolled = s.unpolled)

/-- The model's choice for what 20_memory R61 puts outside the spec (log entry 8): a host access at an address that does
not exist is a fault by name. -/
def Obligations.HostAddressOutside : Prop :=
  ∀ (s : State) (a : Nat) (b : Byte), s.config.memSize ≤ a →
    performHost (.memWrite a b) s = .fault (.hostAddressOutsideMemory a) ∧
    performHost (.memRead a) s = .fault (.hostAddressOutsideMemory a)

/-! ### The step -/

/-- 10_state R40, 00_scope R8: when the engine moves and the pending word decodes to a command, the step is that command's
execution; a host transaction that is next is performed. That the agenda says who moves next, that the engine moves when it
is empty, and that the step only takes the event off it is the model's choice (log entry 1); that with nothing pending the
engine's turn answers the same state is the model's deduction (log entry 15). -/
def Obligations.StepRunsDecoded : Prop :=
  ∀ s : State,
    (∀ i, s.busy = true → decode s.regs.cmd = .command i →
      (s.agenda = [] → step s = exec i s) ∧
      (∀ rest, s.agenda = .engine :: rest → step s = exec i { s with agenda := rest })) ∧
    (∀ h rest, s.agenda = .host h :: rest → step s = performHost h { s with agenda := rest }) ∧
    (s.busy = false → (s.agenda = [] → step s = .next s) ∧
      (∀ rest, s.agenda = .engine :: rest → step s = .next { s with agenda := rest }))

/-- 60_exceptions R191, 30_encoding R93: a pending word that is none of the six faults with IllegalCommand, `ERRINFO` zero,
whatever the operand registers hold, and touches no memory. That the step is that turn of the engine when the agenda is
empty or has the engine first is the model's choice (log entry 1). -/
def Obligations.IllegalWord : Prop :=
  ∀ s : State, s.busy = true → (∀ i : Instr, s.regs.cmd ≠ encode i) →
    (∃ t, engineStep s = .next t ∧ Faulted s t 5 0x00) ∧
    (s.agenda = [] → step s = engineStep s) ∧
    (∀ rest, s.agenda = .engine :: rest → step s = engineStep { s with agenda := rest })

/-- 10_state R40, 70_reset_and_hazards R229: the completion step is enabled whenever a command is pending, whatever else
the state holds, and after it no command is. That an empty agenda, or the engine first on it, gives the engine this step is
the model's choice (log entry 1). -/
def Obligations.PendingCompletes : Prop :=
  ∀ s : State, s.busy = true → (s.agenda = [] ∨ ∃ rest, s.agenda = .engine :: rest) →
    ∃ t, step s = .next t ∧ t.busy = false

/-- 30_encoding R99: a host that only polls `STATUS` sees `BUSY = 1` each time and the command still pending, with every
register and all of memory as at issue. Any number of polls. That the step after the last poll is the one that completes
the command is the model's choice (log entry 1: with an empty agenda the engine moves); the spec says only that completion
comes after finitely many transactions (70_reset_and_hazards R229). -/
def Obligations.PollsThenCompletion : Prop :=
  ∀ (n : Nat) (s : State), s.busy = true → s.agenda = List.replicate n (.host (.regRead 0x04)) →
    (∃ t, Host.Core.run core n s = .next t ∧ t.regs = s.regs ∧ t.mem = s.mem ∧ t.agenda = [] ∧
      (0 < n → t.regData = s.regs.status)) ∧
    ∃ t, Host.Core.run core (n + 1) s = .next t ∧ t.busy = false

/-! ### Faults of a command -/

/-- 60_exceptions R193: every command with a zero or odd width, or else a zero or odd height, faults with InvalidGeometry
and the register's offset, before anything else is looked at. -/
def Obligations.InvalidGeometry : Prop :=
  ∀ (i : Instr) (s : State),
    (s.regs.w = 0 ∨ s.regs.w % 2 = 1 → ∃ t, exec i s = .next t ∧ Faulted s t 1 0x10) ∧
    (0 < s.regs.w → s.regs.w % 2 = 0 → s.regs.h = 0 ∨ s.regs.h % 2 = 1 →
      ∃ t, exec i s = .next t ∧ Faulted s t 1 0x14)

/-- 60_exceptions R194: a sequence command with legal geometry and no frames faults with EmptyInput; a frame command never
does, whatever `NFRAMES` holds. -/
def Obligations.EmptyInput : Prop :=
  (∀ (i : Instr) (s : State), i = .deltaEnc ∨ i = .deltaDec → GeometryOk s.regs → s.regs.n = 0 →
    ∃ t, exec i s = .next t ∧ Faulted s t 2 0x18) ∧
  (∀ (i : Instr) (s : State), i ≠ .deltaEnc → i ≠ .deltaDec → s.regs.errcode ≠ 2 →
    ∃ t, exec i s = .next t ∧ t.regs.errcode ≠ 2)

/-- 60_exceptions R195: `DELTA_DEC` with legal geometry and at least one frame faults with GeometryMismatch unless `LEN` is
exactly `NFRAMES * YUV_BYTES`, the product unbounded; no other command reports it. -/
def Obligations.GeometryMismatch : Prop :=
  (∀ s : State, GeometryOk s.regs → 1 ≤ s.regs.n → s.regs.len.toNat ≠ s.regs.n * s.regs.yuvBytes →
    ∃ t, exec .deltaDec s = .next t ∧ Faulted s t 4 0x28) ∧
  (∀ (i : Instr) (s : State), i ≠ .deltaDec → s.regs.errcode ≠ 4 →
    ∃ t, exec i s = .next t ∧ t.regs.errcode ≠ 4)

/-- 60_exceptions R197: the sizes being legal, a command one of whose regions is not in range faults with BusError and the
offset of the first failing region's base register: source, then reference, then destination. -/
def Obligations.BusError : Prop :=
  ∀ (i : Instr) (s : State), Shaped i s.regs →
    let f := footprint i s.regs
    let n := s.config.memSize
    (n < f.source.base + f.source.size → ∃ t, exec i s = .next t ∧ Faulted s t 6 0x1C) ∧
    (f.source.base + f.source.size ≤ n → ∀ g, f.reference = some g → n < g.base + g.size →
      ∃ t, exec i s = .next t ∧ Faulted s t 6 0x24) ∧
    (f.source.base + f.source.size ≤ n → (∀ g, f.reference = some g → g.base + g.size ≤ n) →
      n < f.dest.base + f.dest.size → ∃ t, exec i s = .next t ∧ Faulted s t 6 0x20)

/-- 60_exceptions R198: sizes legal and regions in range, a command whose destination shares an address with its source
faults with Overlap and the offset of `SRC`, or else, sharing one with its reference, with that of `REF`; sharing none with
either it succeeds, whether or not its source and its reference overlap each other. -/
def Obligations.Overlap : Prop :=
  ∀ (i : Instr) (s : State), Shaped i s.regs → RegionsInRange i s.config.memSize s.regs →
    let f := footprint i s.regs
    (∀ a, f.dest.holds a = true → f.source.holds a = true → ∃ t, exec i s = .next t ∧ Faulted s t 7 0x1C) ∧
    (f.dest.Apart f.source → ∀ g a, f.reference = some g → f.dest.holds a = true → g.holds a = true →
      ∃ t, exec i s = .next t ∧ Faulted s t 7 0x24) ∧
    (f.dest.Apart f.source → (∀ g, f.reference = some g → f.dest.Apart g) →
      ∃ t, exec i s = .next t ∧ Succeeded i s t)

/-- 60_exceptions R199, R201: a command that is not ready faults, with a code and a register offset that the block can
report, and has no effect on memory at all; the command word and all operand registers are kept. -/
def Obligations.FaultIsPrecise : Prop :=
  ∀ (i : Instr) (s : State), ¬ s.ReadyFor i →
    ∃ t code info, exec i s = .next t ∧ (code, info) ∈ reportable ∧ Faulted s t code info

/-- The fault matrix of 60_exceptions section 5, which the spec derives from its checks: a legal command that faults
reports InvalidGeometry, BusError or Overlap, besides EmptyInput for a sequence command and GeometryMismatch for
`DELTA_DEC`; never CorruptBlob or IllegalCommand; and only `DIFF` and `ACC` name `REF`. -/
def Obligations.FaultMatrix : Prop :=
  ∀ (i : Instr) (s t : State), ¬ s.ReadyFor i → exec i s = .next t →
    (t.regs.errcode = 1 ∨ t.regs.errcode = 6 ∨ t.regs.errcode = 7 ∨
      (t.regs.errcode = 2 ∧ (i = .deltaEnc ∨ i = .deltaDec)) ∨ (t.regs.errcode = 4 ∧ i = .deltaDec)) ∧
    (t.regs.errinfo = 0x24 → i = .diff ∨ i = .acc)

/-- That the checks read registers only, which the spec derives (60_exceptions section 1): two states with the same
registers and the same memory size, whatever their memories, configurations and hosts, are left with the same registers
by the same command. -/
def Obligations.ChecksReadRegistersOnly : Prop :=
  ∀ (i : Instr) (s₁ s₂ : State), s₁.regs = s₂.regs → s₁.config.memSize = s₂.config.memSize →
    ∃ t₁ t₂, exec i s₁ = .next t₁ ∧ exec i s₂ = .next t₂ ∧ t₁.regs = t₂.regs

/-! ### What each command writes. A byte is claimed where the host has kept its hands off the addresses it depends on
while the command was pending (70_reset_and_hazards R225); for a host that obeys, everywhere. -/

/-- 40_colour_transform, the effect of `CSC_FWD`: ready, it succeeds; the luma byte of a pixel is `fwdY` of the pixel, and
each chroma byte is `fwdU` or `fwdV` of the top-left pixel of its block (R116), in the layouts of 20_memory R64, R65. -/
def Obligations.CscFwdResult : Prop :=
  ∀ s : State, s.ReadyFor .cscFwd → ∃ t, exec .cscFwd s = .next t ∧ Succeeded .cscFwd s t ∧
    let w := s.regs.w
    let h := s.regs.h
    let a := s.regs.src.toNat
    let d := s.regs.dst.toNat
    let c := s.config.coefFwd
    let rgb := fun y x k => s.mem.read (a + 3 * (y * w + x) + k)
    let clear := fun y x p => s.Clear [p, a + 3 * (y * w + x), a + 3 * (y * w + x) + 1, a + 3 * (y * w + x) + 2]
    (∀ y x, y < h → x < w → clear y x (d + y * w + x) →
      t.mem.read (d + y * w + x) = fwdY c (rgb y x 0) (rgb y x 1) (rgb y x 2)) ∧
    (∀ i j, i < h / 2 → j < w / 2 → clear (2 * i) (2 * j) (d + w * h + i * (w / 2) + j) →
      t.mem.read (d + w * h + i * (w / 2) + j) =
        fwdU c (rgb (2 * i) (2 * j) 0) (rgb (2 * i) (2 * j) 1) (rgb (2 * i) (2 * j) 2)) ∧
    (∀ i j, i < h / 2 → j < w / 2 → clear (2 * i) (2 * j) (d + w * h + (w / 2) * (h / 2) + i * (w / 2) + j) →
      t.mem.read (d + w * h + (w / 2) * (h / 2) + i * (w / 2) + j) =
        fwdV c (rgb (2 * i) (2 * j) 0) (rgb (2 * i) (2 * j) 1) (rgb (2 * i) (2 * j) 2))

/-- 40_colour_transform, the effect of `CSC_INV`: ready, it succeeds; the three samples of a pixel are `invR`, `invG`,
`invB` of its luma byte and of the chroma bytes of its block (R120), in the layouts of 20_memory R64, R65. -/
def Obligations.CscInvResult : Prop :=
  ∀ s : State, s.ReadyFor .cscInv → ∃ t, exec .cscInv s = .next t ∧ Succeeded .cscInv s t ∧
    let w := s.regs.w
    let h := s.regs.h
    let a := s.regs.src.toNat
    let d := s.regs.dst.toNat
    let c := s.config.coefInv
    ∀ y x, y < h → x < w →
      let ya := a + y * w + x
      let ua := a + w * h + (y / 2) * (w / 2) + x / 2
      let va := a + w * h + (w / 2) * (h / 2) + (y / 2) * (w / 2) + x / 2
      let p := d + 3 * (y * w + x)
      let yv := s.mem.read ya
      let uv := s.mem.read ua
      let vv := s.mem.read va
      (s.Clear [p, ya, ua, va] → t.mem.read p = invR c yv uv vv) ∧
      (s.Clear [p + 1, ya, ua, va] → t.mem.read (p + 1) = invG c yv uv vv) ∧
      (s.Clear [p + 2, ya, ua, va] → t.mem.read (p + 2) = invB c yv uv vv)

/-- 41_delta_coder, the effect of `DIFF`: ready, it succeeds, and each byte of the destination is `sub8` of the source byte
and the reference byte at the same offset. Source and reference may overlap. -/
def Obligations.DiffResult : Prop :=
  ∀ s : State, s.ReadyFor .diff → ∃ t, exec .diff s = .next t ∧ Succeeded .diff s t ∧
    ∀ k, k < s.regs.yuvBytes →
      s.Clear [s.regs.dst.toNat + k, s.regs.src.toNat + k, s.regs.ref.toNat + k] →
      t.mem.read (s.regs.dst.toNat + k) =
        sub8 (s.mem.read (s.regs.src.toNat + k)) (s.mem.read (s.regs.ref.toNat + k))

/-- 41_delta_coder, the effect of `ACC`: ready, it succeeds, and each byte of the destination is `add8` of the source byte
and the reference byte at the same offset. -/
def Obligations.AccResult : Prop :=
  ∀ s : State, s.ReadyFor .acc → ∃ t, exec .acc s = .next t ∧ Succeeded .acc s t ∧
    ∀ k, k < s.regs.yuvBytes →
      s.Clear [s.regs.dst.toNat + k, s.regs.src.toNat + k, s.regs.ref.toNat + k] →
      t.mem.read (s.regs.dst.toNat + k) =
        add8 (s.mem.read (s.regs.src.toNat + k)) (s.mem.read (s.regs.ref.toNat + k))

/-- 41_delta_coder R145 and the effect of `DELTA_ENC`: ready, it succeeds; frame 0 of the destination is frame 0 of the
source, and every later frame is the difference from the source frame before it. -/
def Obligations.DeltaEncResult : Prop :=
  ∀ s : State, s.ReadyFor .deltaEnc → ∃ t, exec .deltaEnc s = .next t ∧ Succeeded .deltaEnc s t ∧
    let f := s.regs.yuvBytes
    let a := s.regs.src.toNat
    let d := s.regs.dst.toNat
    (∀ k, k < f → s.Clear [d + k, a + k] → t.mem.read (d + k) = s.mem.read (a + k)) ∧
    (∀ i k, i + 1 < s.regs.n → k < f → s.Clear [d + (i + 1) * f + k, a + (i + 1) * f + k, a + i * f + k] →
      t.mem.read (d + (i + 1) * f + k) = sub8 (s.mem.read (a + (i + 1) * f + k)) (s.mem.read (a + i * f + k)))

/-- 41_delta_coder R146 and the effect of `DELTA_DEC`: ready, it succeeds; frame 0 of the destination is frame 0 of the
source, and every later frame is the source frame added to the reconstructed frame before it; equivalently, every byte is
the sum, modulo 256, of the source bytes at the same position of its frame and all frames before it. -/
def Obligations.DeltaDecResult : Prop :=
  ∀ s : State, s.ReadyFor .deltaDec → ∃ t, exec .deltaDec s = .next t ∧ Succeeded .deltaDec s t ∧
    let f := s.regs.yuvBytes
    let a := s.regs.src.toNat
    let d := s.regs.dst.toNat
    (∀ k, k < f → s.Clear [d + k, a + k] → t.mem.read (d + k) = s.mem.read (a + k)) ∧
    (∀ i k, i + 1 < s.regs.n → k < f → s.Clear [d + (i + 1) * f + k, d + i * f + k] →
      (∀ j, j ≤ i + 1 → a + j * f + k ∉ s.touched) →
      t.mem.read (d + (i + 1) * f + k) = add8 (s.mem.read (a + (i + 1) * f + k)) (t.mem.read (d + i * f + k))) ∧
    (∀ i k, i < s.regs.n → k < f → d + i * f + k ∉ s.touched → (∀ j, j ≤ i → a + j * f + k ∉ s.touched) →
      (t.mem.read (d + i * f + k)).toNat = (∑ j ∈ Finset.range (i + 1), (s.mem.read (a + j * f + k)).toNat) % 256)

/-- The frame of all six commands (10_state R24, 20_memory R63): a next state keeps every register but `STATUS`, `ERRCODE`
and `ERRINFO`, the reserved bits of `STATUS`, the configuration and what is the host's; every byte outside the destination
region, as `footprint` gives it from the registers before the command, reads as before; a command that is ready keeps
`ERRCODE`, `ERRINFO` and the flag `ERR`, one that is not keeps all of memory and the flag `DONE`. -/
def Obligations.CommandFrame : Prop :=
  ∀ (i : Instr) (s t : State), exec i s = .next t →
    Framed s t ∧ t.busy = false ∧
    (∀ a, (footprint i s.regs).dest.holds a = false → t.mem.read a = s.mem.read a) ∧
    (s.ReadyFor i → t.regs.errcode = s.regs.errcode ∧ t.regs.errinfo = s.regs.errinfo ∧ t.err = s.err) ∧
    (¬ s.ReadyFor i → (∀ a, t.mem.read a = s.mem.read a) ∧ t.done = s.done)

/-- 10_state R33: two issues of one command with the same configuration, the same registers and the same contents of the
regions it reads leave the same contents of the region it writes, whatever the rest of the states, with hosts that kept
their hands off. -/
def Obligations.SameInputsSameOutputs : Prop :=
  ∀ (i : Instr) (s₁ s₂ : State), s₁.config = s₂.config → s₁.regs = s₂.regs → s₁.touched = [] → s₂.touched = [] →
    s₁.ReadyFor i →
    (∀ a, (footprint i s₁.regs).source.holds a = true → s₁.mem.read a = s₂.mem.read a) →
    (∀ g a, (footprint i s₁.regs).reference = some g → g.holds a = true → s₁.mem.read a = s₂.mem.read a) →
    ∃ t₁ t₂, exec i s₁ = .next t₁ ∧ exec i s₂ = .next t₂ ∧
      ∀ a, (footprint i s₁.regs).dest.holds a = true → t₁.mem.read a = t₂.mem.read a

/-- The dependence facts that the spec derives (40_colour_transform sections 4 and 6, 41_delta_coder section 8): a
destination byte depends on no input byte but those `inputsOf` lists, and those lie in the regions the command reads. -/
def Obligations.ByteDependsOnItsInputs : Prop :=
  ∀ (i : Instr) (s₁ s₂ : State) (k : Nat), s₁.config = s₂.config → s₁.regs = s₂.regs →
    s₁.touched = [] → s₂.touched = [] → s₁.ReadyFor i → k < (footprint i s₁.regs).dest.size →
    (∀ a ∈ inputsOf i s₁.regs k, (footprint i s₁.regs).source.holds a = true ∨
      ∃ g, (footprint i s₁.regs).reference = some g ∧ g.holds a = true) ∧
    ((∀ a ∈ inputsOf i s₁.regs k, s₁.mem.read a = s₂.mem.read a) →
      ∃ t₁ t₂, exec i s₁ = .next t₁ ∧ exec i s₂ = .next t₂ ∧
        t₁.mem.read ((footprint i s₁.regs).dest.base + k) = t₂.mem.read ((footprint i s₁.regs).dest.base + k))

/-- What the spec derives of chroma (40_colour_transform section 4): changing pixels with an odd row or an odd column
leaves both chroma planes that `CSC_FWD` writes unchanged. -/
def Obligations.ChromaIgnoresOddPixels : Prop :=
  ∀ s₁ s₂ : State, s₁.config = s₂.config → s₁.regs = s₂.regs → s₁.touched = [] → s₂.touched = [] →
    s₁.ReadyFor .cscFwd →
    (∀ y x c, y < s₁.regs.h → x < s₁.regs.w → y % 2 = 0 → x % 2 = 0 → c < 3 →
      s₁.mem.read (s₁.regs.src.toNat + 3 * (y * s₁.regs.w + x) + c) =
        s₂.mem.read (s₁.regs.src.toNat + 3 * (y * s₁.regs.w + x) + c)) →
    ∃ t₁ t₂, exec .cscFwd s₁ = .next t₁ ∧ exec .cscFwd s₂ = .next t₂ ∧
      ∀ k, s₁.regs.w * s₁.regs.h ≤ k → k < s₁.regs.yuvBytes →
        t₁.mem.read (s₁.regs.dst.toNat + k) = t₂.mem.read (s₁.regs.dst.toNat + k)

/-! ### Sample arithmetic -/

/-- 41_delta_coder R141, R142: `sub8` and `add8` are the low eight bits of the two's-complement difference and sum, in
`0 .. 255`, with the examples of the rules. -/
def Obligations.DeltaSampleArithmetic : Prop :=
  (∀ a b : Byte, sub8 a b = a - b ∧ ((sub8 a b).toNat : Int) = ((a.toNat : Int) - b.toNat) % 256) ∧
  (∀ a b : Byte, add8 a b = a + b ∧ (add8 a b).toNat = (a.toNat + b.toNat) % 256) ∧
  sub8 10 3 = 7 ∧ sub8 3 10 = 249 ∧ sub8 0 255 = 1 ∧ sub8 255 0 = 255 ∧ (∀ a, sub8 a a = 0) ∧
  add8 249 10 = 3 ∧ add8 255 1 = 0 ∧ add8 128 128 = 0 ∧ ∀ a, add8 a 0 = a

/-- The inversion law the spec derives from R141 and R142 (41_delta_coder section 2), and that `add8` is commutative. -/
def Obligations.DeltaSamplesInvert : Prop :=
  ∀ a b : Byte, add8 (sub8 a b) b = a ∧ sub8 (add8 a b) b = a ∧ add8 a b = add8 b a

/-- 40_colour_transform R113: for every `COEF_FWD` whose rows have positive denominators, the three forward samples of a
pixel are the exact real values of their rows, no intermediate rounding, rounded toward zero to an integer and reduced
modulo 256. -/
def Obligations.ForwardNarrowingExact : Prop :=
  ∀ (c : CoefFwd) (r g b : Byte), c.y.wf = true → c.u.wf = true → c.v.wf = true →
    let real : FwdRow → ℚ := fun k => (k.r.num / k.r.den : ℚ) * r.toNat + (k.g.num / k.g.den : ℚ) * g.toNat +
      (k.b.num / k.b.den : ℚ) * b.toNat + (k.offset.num / k.offset.den : ℚ)
    let narrowed : ℚ → Int := fun q => (if 0 ≤ q then ⌊q⌋ else ⌈q⌉) % 256
    ((fwdY c r g b).toNat : Int) = narrowed (real c.y) ∧
    ((fwdU c r g b).toNat : Int) = narrowed (real c.u) ∧
    ((fwdV c r g b).toNat : Int) = narrowed (real c.v)

/-- 40_colour_transform R121 to R123: for every `COEF_INV` whose rows have positive denominators, with its own chroma shift,
the three inverse samples are the exact real values of their rows on the shifted chroma, clamped to `0 .. 255` and then
truncated; truncating first and clamping second gives the same. -/
def Obligations.InverseNarrowingExact : Prop :=
  ∀ (c : CoefInv) (y u v : Byte), c.r.wf = true → c.g.wf = true → c.b.wf = true →
    let real : InvRow → ℚ := fun k => (k.y.num / k.y.den : ℚ) * y.toNat +
      (k.u.num / k.u.den : ℚ) * ((u.toNat : ℚ) - c.shift) + (k.v.num / k.v.den : ℚ) * ((v.toNat : ℚ) - c.shift)
    let narrowed : Byte → ℚ → Prop := fun x q =>
      (x.toNat : Int) = ⌊max 0 (min 255 q)⌋ ∧ (x.toNat : Int) = max 0 (min 255 (if 0 ≤ q then ⌊q⌋ else ⌈q⌉))
    narrowed (invR c y u v) (real c.r) ∧ narrowed (invG c y u v) (real c.g) ∧ narrowed (invB c y u v) (real c.b)

/-- The integer form the spec derives for the document's `COEF_FWD` (40_colour_transform section 2), in which the reduction
modulo 256 never changes a value. -/
def Obligations.ForwardIntegerForm : Prop :=
  ∀ r g b : Byte,
    ((fwdY .document r g b).toNat : Int) = (299 * r.toNat + 587 * g.toNat + 114 * b.toNat) / 1000 ∧
    ((fwdU .document r g b).toNat : Int) = (-169 * r.toNat - 331 * g.toNat + 449 * b.toNat + 128000) / 1000 ∧
    ((fwdV .document r g b).toNat : Int) = (4990 * r.toNat - 4180 * g.toNat - 813 * b.toNat + 1280000) / 10000

/-- The integer form the spec derives for the document's `COEF_INV` (40_colour_transform section 5): a numerator over 1000,
zero below zero, 255 from 255000 on. -/
def Obligations.InverseIntegerForm : Prop :=
  ∀ y u v : Byte,
    let c8 := fun n : Int => if n < 0 then 0 else if 255000 ≤ n then 255 else n / 1000
    let du : Int := (u.toNat : Int) - 128
    let dv : Int := (v.toNat : Int) - 128
    ((invR .document y u v).toNat : Int) = c8 (1000 * y.toNat + 1402 * dv) ∧
    ((invG .document y u v).toNat : Int) = c8 (1000 * y.toNat - 344 * du - 714 * dv) ∧
    ((invB .document y u v).toNat : Int) = c8 (1000 * y.toNat + 1772 * du)

/-- What the spec derives of greys with the document's coefficients (40_colour_transform sections 6 and 7): luma is the
grey itself, chroma is not neutral, and neutral chroma comes back as the grey. -/
def Obligations.Greys : Prop :=
  ∀ g : Byte,
    fwdY .document g g g = g ∧
    (fwdU .document g g g).toNat = (128000 - 51 * g.toNat) / 1000 ∧
    (fwdV .document g g g).toNat = (if g = 0 then 128 else 127) ∧
    invR .document g 128 128 = g ∧ invG .document g 128 128 = g ∧ invB .document g 128 128 = g

/-! ### Laws over two commands -/

/-- The delta round trip the spec derives (41_delta_coder section 8): `DELTA_ENC` and then `DELTA_DEC` of its output with
the same geometry and frame count gives back the source, byte for byte. -/
def Obligations.DeltaRoundTrip : Prop :=
  ∀ s t s' : State, s.ReadyFor .deltaEnc → s.touched = [] → exec .deltaEnc s = .next t →
    s'.mem = t.mem → s'.touched = [] → s'.ReadyFor .deltaDec →
    s'.regs.width = s.regs.width → s'.regs.height = s.regs.height → s'.regs.nframes = s.regs.nframes →
    s'.regs.src = s.regs.dst →
    ∃ u, exec .deltaDec s' = .next u ∧ Succeeded .deltaDec s' u ∧
      ∀ k, k < s.regs.n * s.regs.yuvBytes →
        u.mem.read (s'.regs.dst.toNat + k) = s.mem.read (s.regs.src.toNat + k)

/-- The converse the spec derives (41_delta_coder section 8): any bytes are a delta sequence, and `DELTA_ENC` after
`DELTA_DEC` gives them back. -/
def Obligations.DeltaRoundTripConverse : Prop :=
  ∀ s t s' : State, s.ReadyFor .deltaDec → s.touched = [] → exec .deltaDec s = .next t →
    s'.mem = t.mem → s'.touched = [] → s'.ReadyFor .deltaEnc →
    s'.regs.width = s.regs.width → s'.regs.height = s.regs.height → s'.regs.nframes = s.regs.nframes →
    s'.regs.src = s.regs.dst →
    ∃ u, exec .deltaEnc s' = .next u ∧ Succeeded .deltaEnc s' u ∧
      ∀ k, k < s.regs.n * s.regs.yuvBytes →
        u.mem.read (s'.regs.dst.toNat + k) = s.mem.read (s.regs.src.toNat + k)

/-- The colour round trip the spec derives (40_colour_transform section 7): after `CSC_FWD` and `CSC_INV` each pixel is
the inverse of its own luma and of the chroma of the top-left pixel of its block. -/
def Obligations.ColourRoundTrip : Prop :=
  ∀ s t s' : State, s.ReadyFor .cscFwd → s.touched = [] → exec .cscFwd s = .next t →
    s'.mem = t.mem → s'.touched = [] → s'.ReadyFor .cscInv →
    s'.regs.width = s.regs.width → s'.regs.height = s.regs.height → s'.regs.src = s.regs.dst →
    ∃ u, exec .cscInv s' = .next u ∧ Succeeded .cscInv s' u ∧
      let w := s.regs.w
      let rgb := fun y x k => s.mem.read (s.regs.src.toNat + 3 * (y * w + x) + k)
      let out := fun y x k => u.mem.read (s'.regs.dst.toNat + 3 * (y * w + x) + k)
      let cf := s.config.coefFwd
      let ci := s'.config.coefInv
      ∀ y x, y < s.regs.h → x < w →
        let yy := fwdY cf (rgb y x 0) (rgb y x 1) (rgb y x 2)
        let y₀ := 2 * (y / 2)
        let x₀ := 2 * (x / 2)
        let uu := fwdU cf (rgb y₀ x₀ 0) (rgb y₀ x₀ 1) (rgb y₀ x₀ 2)
        let vv := fwdV cf (rgb y₀ x₀ 0) (rgb y₀ x₀ 1) (rgb y₀ x₀ 2)
        out y x 0 = invR ci yy uu vv ∧ out y x 1 = invG ci yy uu vv ∧ out y x 2 = invB ci yy uu vv

/-- Sequence commands as chains of frame commands, which the spec derives (41_delta_coder section 8): whenever a sequence
command is ready, so is each frame command of its chain, with its three frames distinct frames of the two sequences. -/
def Obligations.ChainStepsReady : Prop :=
  ∀ (r : Registers) (memSize i : Nat), memSize ≤ 2 ^ 32 → i + 1 < r.n →
    let f := r.yuvBytes
    let s := r.src.toNat
    let d := r.dst.toNat
    (Ready .deltaEnc memSize r →
      Ready .diff memSize { r with
        src := BitVec.ofNat 32 (s + (i + 1) * f), ref := BitVec.ofNat 32 (s + i * f),
        dst := BitVec.ofNat 32 (d + (i + 1) * f) }) ∧
    (Ready .deltaDec memSize r →
      Ready .acc memSize { r with
        src := BitVec.ofNat 32 (s + (i + 1) * f), ref := BitVec.ofNat 32 (d + i * f),
        dst := BitVec.ofNat 32 (d + (i + 1) * f) })

/-! ### The whole machine -/

/-- Every step keeps the invariant: the configuration legal, `STATUS` one of its four values (10_state R27), `ERRCODE` and
`ERRINFO` zero exactly without a latched fault and otherwise a reportable pair (R28, R29), memory canonical and within its
size, the pending command's registers those of its issue (R38). -/
def Obligations.StepKeepsInv : Prop :=
  ∀ s t : State, Inv s → step s = .next t → Inv t

/-- No step of the host or the engine changes the configuration (00_scope R6: parameters, not state). -/
def Obligations.ConfigNeverChanges : Prop :=
  ∀ s t : State, step s = .next t → t.config = s.config

/-- 10_state R24, R38: the operand registers and `CMD` change only by a register write or a reset of the host; in
particular no completion step, successful or faulting, changes one. -/
def Obligations.OnlyHostWritesOperands : Prop :=
  ∀ s t : State, step s = .next t →
    (∀ off v rest, s.agenda ≠ .host (.regWrite off v) :: rest) → (∀ rest, s.agenda ≠ .host .hardReset :: rest) →
    t.regs.cmd = s.regs.cmd ∧ ∀ n : Reg, n.isOperand = true → t.regs.get n = s.regs.get n

/-- 60_exceptions R202: a latched fault is left only by a reset: every step other than a soft or a hard reset keeps `ERR`,
`ERRCODE`, `ERRINFO` and the word of the command that faulted. -/
def Obligations.OnlyResetClearsFault : Prop :=
  ∀ s t : State, Inv s → s.err = true → step s = .next t →
    (∀ v rest, s.agenda = .host (.regWrite 0x2C v) :: rest → v.getLsbD 0 = false) →
    (∀ rest, s.agenda ≠ .host .hardReset :: rest) →
    t.err = true ∧ t.regs.errcode = s.regs.errcode ∧ t.regs.errinfo = s.regs.errinfo ∧ t.regs.cmd = s.regs.cmd
end

