-- ==== Sys2Proof/Laws/Flags.lean ====
section
/-! SUPPORT. The three bits of `STATUS` under the three updates of 10_state R37, R40. Bits 31:3 are never changed. -/

namespace Sys2Proof.Machine

@[simp] theorem busy_issued (w : Word) : statusBusy (statusIssued w) = true := by
  simp [statusBusy, statusIssued]
@[simp] theorem done_issued (w : Word) : statusDone (statusIssued w) = false := by
  simp [statusDone, statusIssued]
@[simp] theorem err_issued (w : Word) : statusErr (statusIssued w) = statusErr w := by
  simp [statusErr, statusIssued]

@[simp] theorem busy_succeeded (w : Word) : statusBusy (statusSucceeded w) = false := by
  simp [statusBusy, statusSucceeded]
@[simp] theorem done_succeeded (w : Word) : statusDone (statusSucceeded w) = true := by
  simp [statusDone, statusSucceeded]
@[simp] theorem err_succeeded (w : Word) : statusErr (statusSucceeded w) = statusErr w := by
  simp [statusErr, statusSucceeded]

@[simp] theorem busy_faulted (w : Word) : statusBusy (statusFaulted w) = false := by
  simp [statusBusy, statusFaulted]
@[simp] theorem done_faulted (w : Word) : statusDone (statusFaulted w) = statusDone w := by
  simp [statusDone, statusFaulted]
@[simp] theorem err_faulted (w : Word) : statusErr (statusFaulted w) = true := by
  simp [statusErr, statusFaulted]

/-- The reserved bits of `STATUS` (10_state R43) are left alone by every update. -/
theorem reserved_kept (w : Word) (i : Nat) (h : 3 ≤ i) :
    (statusIssued w).getLsbD i = w.getLsbD i ∧ (statusSucceeded w).getLsbD i = w.getLsbD i ∧
      (statusFaulted w).getLsbD i = w.getLsbD i := by
  by_cases hi : i < 32
  · interval_cases i <;> simp [statusIssued, statusSucceeded, statusFaulted]
  · simp [BitVec.getLsbD_of_ge _ _ (Nat.le_of_not_lt hi)]

end Sys2Proof.Machine
end

