-- ==== Sys2Proof/Laws/Memory.lean ====
section
/-! SUPPORT. The memory operations: what a read gives after a write or a store, and that both keep the canonical form and
the range of addresses. No premise on the memory is needed for reading. -/

namespace Sys2Proof.Machine

@[simp] theorem Memory.read_nil (a : Nat) : Memory.read [] a = Memory.unlisted := rfl

theorem Memory.read_cons (c : Host.Cell) (m : Memory) (a : Nat) :
    Memory.read (c :: m) a = if c.1 = a then c.2 else Memory.read m a := rfl

theorem Memory.read_filter_same (m : Memory) (a : Nat) :
    Memory.read (m.filter (fun c => c.1 != a)) a = Memory.unlisted := by
  induction m with
  | nil => rfl
  | cons c m ih =>
    by_cases h : c.1 = a
    · simpa [List.filter_cons, h] using ih
    · simpa [List.filter_cons, h, Memory.read_cons] using ih

theorem Memory.read_filter_other (m : Memory) {a x : Nat} (h : x ≠ a) :
    Memory.read (m.filter (fun c => c.1 != a)) x = Memory.read m x := by
  induction m with
  | nil => rfl
  | cons c m ih =>
    by_cases hc : c.1 = a
    · have hx : c.1 ≠ x := fun e => h (e ▸ hc)
      simpa [List.filter_cons, hc, Memory.read_cons, hx, Ne.symm h] using ih
    · simp [hc, Memory.read_cons, ih]

theorem Memory.read_place (m : Memory) (c : Host.Cell) (h : ∀ d ∈ m, d.1 ≠ c.1) (x : Nat) :
    Memory.read (m.place c) x = if c.1 = x then c.2 else Memory.read m x := by
  induction m with
  | nil => rfl
  | cons d m ih =>
    have ih := ih (fun e he => h e (List.mem_cons_of_mem _ he))
    unfold Memory.place
    split
    · rfl
    · have hd : d.1 ≠ c.1 := h d List.mem_cons_self
      by_cases hx : d.1 = x
      · have hcx : c.1 ≠ x := fun e => hd (hx.trans e.symm)
        simp [Memory.read_cons, hx, hcx]
      · simp [Memory.read_cons, hx, ih]

theorem Memory.filter_ne (m : Memory) (a : Nat) : ∀ d ∈ m.filter (fun c => c.1 != a), d.1 ≠ a := by
  intro d hd
  simpa using (List.mem_filter.mp hd).2

/-- A byte read after a write: the byte written there, and every other byte as before. -/
theorem Memory.read_write (m : Memory) (a : Nat) (b : Byte) (x : Nat) :
    (m.write a b).read x = if a = x then b else m.read x := by
  unfold Memory.write
  by_cases hx : a = x
  · subst hx
    by_cases hb : b = Memory.unlisted
    · simp [hb, Memory.read_filter_same]
    · simp [hb, Memory.read_place _ (a, b) (Memory.filter_ne m a)]
  · have ho := Memory.read_filter_other m (Ne.symm hx)
    by_cases hb : b = Memory.unlisted
    · simp [hb, hx, ho]
    · simp [hb, Memory.read_place _ (a, b) (Memory.filter_ne m a), hx, ho]

@[simp] theorem Memory.read_write_same (m : Memory) (a : Nat) (b : Byte) : (m.write a b).read a = b := by
  simp [Memory.read_write]

theorem Memory.read_write_other (m : Memory) {a x : Nat} (b : Byte) (h : a ≠ x) :
    (m.write a b).read x = m.read x := by
  simp [Memory.read_write, h]

/-- A byte read after a store over a region: the byte stored at its offset if there is one, else as before. -/
theorem Memory.read_store (m : Memory) (base size : Nat) (f : Nat → Option Byte) (x : Nat) :
    (m.store base size f).read x =
      if base ≤ x ∧ x < base + size then (f (x - base)).getD (m.read x) else m.read x := by
  induction size with
  | zero => simp [Memory.store]
  | succ k ih =>
    have hstep : (m.store base (k + 1) f).read x =
        if base + k = x then (f k).getD ((m.store base k f).read x) else (m.store base k f).read x := by
      cases hf : f k with
      | none => simp [Memory.store, hf]
      | some b => simp [Memory.store, hf, Memory.read_write]
    rw [hstep, ih]
    by_cases hx : base + k = x
    · subst hx; simp
    · have : (base ≤ x ∧ x < base + (k + 1)) ↔ (base ≤ x ∧ x < base + k) := by omega
      simp only [hx, if_false, this]

/-- Inside a region stored whole, the byte at an offset is the one stored there. -/
theorem Memory.read_store_at (m : Memory) {base size k : Nat} (f : Nat → Byte) (h : k < size) :
    (m.store base size (fun j => some (f j))).read (base + k) = f k := by
  simp [Memory.read_store, h]

/-- Outside the region stored to, every byte is as before. -/
theorem Memory.read_store_outside (m : Memory) {base size x : Nat} (f : Nat → Option Byte)
    (h : ¬ (base ≤ x ∧ x < base + size)) : (m.store base size f).read x = m.read x := by
  simp only [Memory.read_store, h, if_false]

theorem Memory.mem_place {m : Memory} {c d : Host.Cell} : d ∈ m.place c ↔ d = c ∨ d ∈ m := by
  induction m with
  | nil => simp [Memory.place]
  | cons e m ih =>
    unfold Memory.place
    split
    · simp
    · simp [ih]; tauto

theorem Memory.sorted_place {m : Memory} (c : Host.Cell) (hs : m.Pairwise (fun x y => x.1 < y.1))
    (hne : ∀ d ∈ m, d.1 ≠ c.1) : (m.place c).Pairwise (fun x y => x.1 < y.1) := by
  induction m with
  | nil => simp [Memory.place]
  | cons e m ih =>
    obtain ⟨he, hm⟩ := List.pairwise_cons.mp hs
    have hne' := hne e List.mem_cons_self
    unfold Memory.place
    split
    · rename_i hlt
      refine List.pairwise_cons.mpr ⟨fun d hd => ?_, hs⟩
      rcases List.mem_cons.mp hd with rfl | hd
      · exact hlt
      · exact lt_trans hlt (he d hd)
    · rename_i hlt
      refine List.pairwise_cons.mpr ⟨fun d hd => ?_, ih hm fun d hd => hne d (List.mem_cons_of_mem _ hd)⟩
      rcases Memory.mem_place.mp hd with rfl | hd
      · omega
      · exact he d hd

/-- A write keeps the canonical form. -/
theorem Memory.wf_write {m : Memory} (h : Memory.wf m) (a : Nat) (b : Byte) : Memory.wf (m.write a b) := by
  have hf : Memory.wf (m.filter (fun c => c.1 != a)) :=
    ⟨h.1.sublist List.filter_sublist, fun c hc => h.2 c (List.mem_filter.mp hc).1⟩
  unfold Memory.write
  by_cases hb : b = Memory.unlisted
  · simpa [hb] using hf
  · simp only [hb, if_false]
    refine ⟨Memory.sorted_place _ hf.1 (Memory.filter_ne m a), fun c hc => ?_⟩
    rcases Memory.mem_place.mp hc with rfl | hc
    · exact hb
    · exact hf.2 c hc

/-- A store keeps the canonical form. -/
theorem Memory.wf_store {m : Memory} (h : Memory.wf m) (base size : Nat) (f : Nat → Option Byte) :
    Memory.wf (m.store base size f) := by
  induction size with
  | zero => exact h
  | succ k ih =>
    unfold Memory.store
    cases f k with
    | none => exact ih
    | some b => exact Memory.wf_write ih _ _

/-- A write lists no address but its own. -/
theorem Memory.addr_write {m : Memory} {a n : Nat} {b : Byte} (h : ∀ c ∈ m, c.1 < n) (ha : a < n) :
    ∀ c ∈ m.write a b, c.1 < n := by
  have hf : ∀ c ∈ m.filter (fun c => c.1 != a), c.1 < n := fun c hc => h c (List.mem_filter.mp hc).1
  unfold Memory.write
  by_cases hb : b = Memory.unlisted
  · simpa [hb] using hf
  · simp only [hb, if_false]
    intro c hc
    rcases Memory.mem_place.mp hc with rfl | hc
    · exact ha
    · exact hf c hc

/-- A store into a region that is in range lists no address out of range. -/
theorem Memory.addr_store {m : Memory} {base size n : Nat} {f : Nat → Option Byte} (h : ∀ c ∈ m, c.1 < n)
    (hr : base + size ≤ n) : ∀ c ∈ m.store base size f, c.1 < n := by
  induction size with
  | zero => exact h
  | succ k ih =>
    have ih := ih (by omega)
    unfold Memory.store
    cases f k with
    | none => exact ih
    | some b => exact Memory.addr_write ih (by omega)

/-- The memory with nothing listed is in canonical form. -/
theorem Memory.wf_nil : Memory.wf [] := ⟨List.Pairwise.nil, by simp⟩

/-- A memory made of given bytes reads as they are. -/
theorem Memory.read_ofBytes {size a : Nat} (contents : Nat → Byte) (h : a < size) :
    (Memory.ofBytes size contents).read a = contents a := by
  simpa [Memory.ofBytes] using Memory.read_store_at [] (base := 0) contents h

/-- A memory made of given bytes is in canonical form. -/
theorem Memory.wf_ofBytes (size : Nat) (contents : Nat → Byte) : Memory.wf (Memory.ofBytes size contents) :=
  Memory.wf_store Memory.wf_nil _ _ _

/-- A memory made of given bytes lists no address out of range. -/
theorem Memory.addr_ofBytes (size : Nat) (contents : Nat → Byte) : ∀ c ∈ Memory.ofBytes size contents, c.1 < size :=
  Memory.addr_store (by simp) (by omega)

/-- A memory all of whose bytes are what an unlisted address reads as lists nothing. -/
theorem Memory.ofBytes_unlisted (size : Nat) : Memory.ofBytes size (fun _ => Memory.unlisted) = [] := by
  unfold Memory.ofBytes
  induction size with
  | zero => rfl
  | succ k ih =>
    unfold Memory.store
    rw [ih]
    rfl

end Sys2Proof.Machine
end

