-- ==== Sys2Proof/Laws/State.lean ====
section
/-! SUPPORT. One lemma per field for each update of the state, true by definition, so that no later proof unfolds a record
update. -/

namespace Sys2Proof.Machine

/-! ### Fault entry (60_exceptions R199) -/

@[simp] theorem State.raise_config (s : State) (e : Report) : (s.raise e).config = s.config := rfl

@[simp] theorem State.raise_regs (s : State) (e : Report) : (s.raise e).regs = { s.regs with errcode := e.kind.code, errinfo := e.info.offset, status := statusFaulted s.regs.status } := rfl

@[simp] theorem State.raise_mem (s : State) (e : Report) : (s.raise e).mem = s.mem := rfl

@[simp] theorem State.raise_agenda (s : State) (e : Report) : (s.raise e).agenda = s.agenda := rfl

@[simp] theorem State.raise_regData (s : State) (e : Report) : (s.raise e).regData = s.regData := rfl

@[simp] theorem State.raise_memData (s : State) (e : Report) : (s.raise e).memData = s.memData := rfl

@[simp] theorem State.raise_unpolled (s : State) (e : Report) : (s.raise e).unpolled = s.unpolled := rfl

@[simp] theorem State.raise_touched (s : State) (e : Report) : (s.raise e).touched = [] := rfl

@[simp] theorem State.raise_freeCount (s : State) (e : Report) : (s.raise e).freeCount = s.freeCount := rfl

/-! ### Soft reset (70_reset_and_hazards R221) -/

@[simp] theorem State.softReset_config (s : State) : (s.softReset).config = s.config := rfl

@[simp] theorem State.softReset_regs (s : State) : (s.softReset).regs = Registers.reset := rfl

@[simp] theorem State.softReset_mem (s : State) : (s.softReset).mem = s.mem := rfl

@[simp] theorem State.softReset_agenda (s : State) : (s.softReset).agenda = s.agenda := rfl

@[simp] theorem State.softReset_regData (s : State) : (s.softReset).regData = s.regData := rfl

@[simp] theorem State.softReset_memData (s : State) : (s.softReset).memData = s.memData := rfl

@[simp] theorem State.softReset_unpolled (s : State) : (s.softReset).unpolled = s.unpolled := rfl

@[simp] theorem State.softReset_touched (s : State) : (s.softReset).touched = s.touched := rfl

@[simp] theorem State.softReset_freeCount (s : State) : (s.softReset).freeCount = s.freeCount := rfl

/-! ### Completion without fault (10_state R40) -/

@[simp] theorem State.succeed_config (s : State) : (s.succeed).config = s.config := rfl

@[simp] theorem State.succeed_regs (s : State) : (s.succeed).regs = { s.regs with status := statusSucceeded s.regs.status } := rfl

@[simp] theorem State.succeed_mem (s : State) : (s.succeed).mem = s.mem := rfl

@[simp] theorem State.succeed_agenda (s : State) : (s.succeed).agenda = s.agenda := rfl

@[simp] theorem State.succeed_regData (s : State) : (s.succeed).regData = s.regData := rfl

@[simp] theorem State.succeed_memData (s : State) : (s.succeed).memData = s.memData := rfl

@[simp] theorem State.succeed_unpolled (s : State) : (s.succeed).unpolled = s.unpolled := rfl

@[simp] theorem State.succeed_touched (s : State) : (s.succeed).touched = [] := rfl

@[simp] theorem State.succeed_freeCount (s : State) : (s.succeed).freeCount = s.freeCount := rfl

/-! ### The memory effect of a command (20_memory R63) -/

@[simp] theorem State.storeResult_config (s : State) (i : Instr) (effect : Effect) : (s.storeResult i effect).config = s.config := rfl

@[simp] theorem State.storeResult_regs (s : State) (i : Instr) (effect : Effect) : (s.storeResult i effect).regs = s.regs := rfl

@[simp] theorem State.storeResult_mem (s : State) (i : Instr) (effect : Effect) : (s.storeResult i effect).mem = s.mem.store (footprint i s.regs).dest.base (footprint i s.regs).dest.size (fun k =>
      some (if s.disturbed i k then Config.freeByte (s.freeCount + k) else effect s.config s.regs s.mem.read k)) := rfl

@[simp] theorem State.storeResult_agenda (s : State) (i : Instr) (effect : Effect) : (s.storeResult i effect).agenda = s.agenda := rfl

@[simp] theorem State.storeResult_regData (s : State) (i : Instr) (effect : Effect) : (s.storeResult i effect).regData = s.regData := rfl

@[simp] theorem State.storeResult_memData (s : State) (i : Instr) (effect : Effect) : (s.storeResult i effect).memData = s.memData := rfl

@[simp] theorem State.storeResult_unpolled (s : State) (i : Instr) (effect : Effect) : (s.storeResult i effect).unpolled = s.unpolled := rfl

@[simp] theorem State.storeResult_touched (s : State) (i : Instr) (effect : Effect) : (s.storeResult i effect).touched = s.touched := rfl

@[simp] theorem State.storeResult_freeCount (s : State) (i : Instr) (effect : Effect) : (s.storeResult i effect).freeCount = if s.touched.isEmpty then s.freeCount else s.freeCount + (footprint i s.regs).dest.size := rfl

/-! ### The agenda -/

@[simp] theorem State.withAgenda_config (s : State) (rest : List Event) : (s.withAgenda rest).config = s.config := rfl

@[simp] theorem State.withAgenda_regs (s : State) (rest : List Event) : (s.withAgenda rest).regs = s.regs := rfl

@[simp] theorem State.withAgenda_mem (s : State) (rest : List Event) : (s.withAgenda rest).mem = s.mem := rfl

@[simp] theorem State.withAgenda_agenda (s : State) (rest : List Event) : (s.withAgenda rest).agenda = rest := rfl

@[simp] theorem State.withAgenda_regData (s : State) (rest : List Event) : (s.withAgenda rest).regData = s.regData := rfl

@[simp] theorem State.withAgenda_memData (s : State) (rest : List Event) : (s.withAgenda rest).memData = s.memData := rfl

@[simp] theorem State.withAgenda_unpolled (s : State) (rest : List Event) : (s.withAgenda rest).unpolled = s.unpolled := rfl

@[simp] theorem State.withAgenda_touched (s : State) (rest : List Event) : (s.withAgenda rest).touched = s.touched := rfl

@[simp] theorem State.withAgenda_freeCount (s : State) (rest : List Event) : (s.withAgenda rest).freeCount = s.freeCount := rfl

/-! ### A register read (10_state R22) -/

@[simp] theorem State.regRead_config (s : State) (off : Word) : (s.regRead off).config = s.config := rfl

@[simp] theorem State.regRead_regs (s : State) (off : Word) : (s.regRead off).regs = s.regs := rfl

@[simp] theorem State.regRead_mem (s : State) (off : Word) : (s.regRead off).mem = s.mem := rfl

@[simp] theorem State.regRead_agenda (s : State) (off : Word) : (s.regRead off).agenda = s.agenda := rfl

@[simp] theorem State.regRead_regData (s : State) (off : Word) : (s.regRead off).regData = s.regValue off := rfl

@[simp] theorem State.regRead_memData (s : State) (off : Word) : (s.regRead off).memData = s.memData := rfl

@[simp] theorem State.regRead_unpolled (s : State) (off : Word) : (s.regRead off).unpolled = if Reg.ofOffset off = some .status && !s.busy then [] else s.unpolled := rfl

@[simp] theorem State.regRead_touched (s : State) (off : Word) : (s.regRead off).touched = s.touched := rfl

@[simp] theorem State.regRead_freeCount (s : State) (off : Word) : (s.regRead off).freeCount = s.freeCount := rfl

/-! ### Before an issue -/

@[simp] theorem State.readyToIssue_config (s : State) : (s.readyToIssue).config = s.config := rfl

@[simp] theorem State.readyToIssue_regs (s : State) : (s.readyToIssue).regs = { s.regs with status := 0, errcode := 0, errinfo := 0 } := rfl

@[simp] theorem State.readyToIssue_mem (s : State) : (s.readyToIssue).mem = s.mem := rfl

@[simp] theorem State.readyToIssue_agenda (s : State) : (s.readyToIssue).agenda = s.agenda := rfl

@[simp] theorem State.readyToIssue_regData (s : State) : (s.readyToIssue).regData = s.regData := rfl

@[simp] theorem State.readyToIssue_memData (s : State) : (s.readyToIssue).memData = s.memData := rfl

@[simp] theorem State.readyToIssue_unpolled (s : State) : (s.readyToIssue).unpolled = s.unpolled := rfl

@[simp] theorem State.readyToIssue_touched (s : State) : (s.readyToIssue).touched = s.touched := rfl

@[simp] theorem State.readyToIssue_freeCount (s : State) : (s.readyToIssue).freeCount = s.freeCount := rfl

/-! ### The register file at reset (10_state R41) -/

@[simp] theorem Registers.reset_cmd : Registers.reset.cmd = 0 := rfl

@[simp] theorem Registers.reset_status : Registers.reset.status = 0 := rfl

@[simp] theorem Registers.reset_errcode : Registers.reset.errcode = 0 := rfl

@[simp] theorem Registers.reset_errinfo : Registers.reset.errinfo = 0 := rfl

@[simp] theorem Registers.reset_width : Registers.reset.width = 0 := rfl

@[simp] theorem Registers.reset_height : Registers.reset.height = 0 := rfl

@[simp] theorem Registers.reset_nframes : Registers.reset.nframes = 0 := rfl

@[simp] theorem Registers.reset_src : Registers.reset.src = 0 := rfl

@[simp] theorem Registers.reset_dst : Registers.reset.dst = 0 := rfl

@[simp] theorem Registers.reset_ref : Registers.reset.ref = 0 := rfl

@[simp] theorem Registers.reset_len : Registers.reset.len = 0 := rfl

@[simp] theorem State.reset_config : State.reset.config = Config.document 0x1000 := rfl

@[simp] theorem State.reset_regs : State.reset.regs = Registers.reset := rfl

@[simp] theorem State.reset_mem : State.reset.mem = [] := rfl

@[simp] theorem State.reset_agenda : State.reset.agenda = [] := rfl

@[simp] theorem State.reset_unpolled : State.reset.unpolled = [] := rfl

@[simp] theorem State.reset_touched : State.reset.touched = [] := rfl

/-! ### Power-on (70_reset_and_hazards R223) -/

@[simp] theorem State.powerOn_config (config : Config) (contents : Nat → Byte) :
    (State.powerOn config contents).config = config := rfl

@[simp] theorem State.powerOn_regs (config : Config) (contents : Nat → Byte) :
    (State.powerOn config contents).regs = Registers.reset := rfl

@[simp] theorem State.powerOn_mem (config : Config) (contents : Nat → Byte) :
    (State.powerOn config contents).mem = Memory.ofBytes config.memSize contents := rfl

@[simp] theorem State.powerOn_agenda (config : Config) (contents : Nat → Byte) :
    (State.powerOn config contents).agenda = [] := rfl

@[simp] theorem State.powerOn_unpolled (config : Config) (contents : Nat → Byte) :
    (State.powerOn config contents).unpolled = [] := rfl

@[simp] theorem State.powerOn_touched (config : Config) (contents : Nat → Byte) :
    (State.powerOn config contents).touched = [] := rfl

end Sys2Proof.Machine
end

