-- ==== Sys2Proof/Laws/Completion.lean ====
section
/-! SUPPORT. What the shared operations can do, each said once: completing a command, the host's accesses, a step. -/

namespace Sys2Proof.Machine

/-- The effect of each command, as its meaning hands it to `complete`. -/
def effectOf : Instr → Effect
  | .cscFwd   => cscFwdByte
  | .cscInv   => cscInvByte
  | .deltaEnc => deltaEncByte
  | .deltaDec => deltaDecByte
  | .diff     => diffByte
  | .acc      => accByte

/-- Every command is a completion step with its own effect. -/
theorem exec_eq_complete (i : Instr) (s : State) : exec i s = complete i (effectOf i) s := by
  cases i <;> rfl

/-- A completion step always answers a next state: fault entry for the first failing check, else the memory effect. -/
theorem complete_cases {i : Instr} {effect : Effect} {s t : State} (h : complete i effect s = .next t) :
    (∃ e, firstFault i s.config.memSize s.regs = some e ∧ t = s.raise e) ∨
      (firstFault i s.config.memSize s.regs = none ∧ t = (s.storeResult i effect).succeed) := by
  unfold complete at h
  split at h
  · rename_i e he
    exact .inl ⟨e, he, (Host.Outcome.next.inj h).symm⟩
  · rename_i he
    exact .inr ⟨he, (Host.Outcome.next.inj h).symm⟩

theorem complete_fault {i : Instr} {effect : Effect} {s : State} {e : Report}
    (h : firstFault i s.config.memSize s.regs = some e) : complete i effect s = .next (s.raise e) := by
  simp [complete, h]

theorem complete_ok {i : Instr} {effect : Effect} {s : State}
    (h : firstFault i s.config.memSize s.regs = none) :
    complete i effect s = .next (s.storeResult i effect).succeed := by
  simp [complete, h]

/-- The reported fault is that of the first failing check, all earlier ones having passed. -/
theorem firstFault_eq_none {i : Instr} {n : Nat} {r : Registers} :
    firstFault i n r = none ↔ checkGeometry r = none ∧ checkEmpty i r = none ∧ checkLength i r = none ∧
      checkRange i n r = none ∧ checkOverlap i r = none := by
  simp only [firstFault, Option.orElse_eq_none]

/-- No check failing, every region of the command is in range. -/
theorem firstFault_none_range {i : Instr} {n : Nat} {r : Registers} (h : firstFault i n r = none) :
    (footprint i r).dest.base + (footprint i r).dest.size ≤ n := by
  have h := (firstFault_eq_none.mp h).2.2.2.1
  unfold checkRange at h
  by_contra hc
  have hd : (footprint i r).dest.inRange n = false := by simpa [Region.inRange] using hc
  simp only [hd, Bool.not_false, if_true] at h
  split at h <;> [skip; split at h] <;> simp at h

theorem liveCommand_eq_some {n : Nat} {r : Registers} {i : Instr} (h : liveCommand n r = some i) :
    decode r.cmd = .command i ∧ firstFault i n r = none := by
  unfold liveCommand at h
  split at h
  · rename_i j hj
    split at h
    · rename_i hf
      cases Option.some.inj h
      exact ⟨hj, Option.isNone_iff_eq_none.mp hf⟩
    · cases h
  · cases h

/-- The engine's turn: nothing pending, a legal command executed, or an illegal word reported. -/
theorem engineStep_cases (s : State) :
    (s.busy = false ∧ engineStep s = .next s) ∨
      (s.busy = true ∧ ∃ i, decode s.commandWord = .command i ∧ engineStep s = exec i s) ∨
      (s.busy = true ∧ ∃ r, decode s.commandWord = .illegal r ∧ engineStep s = .next (s.raise illegalReport)) := by
  unfold engineStep
  cases hb : s.busy with
  | false => exact .inl ⟨rfl, by simp⟩
  | true =>
    right
    cases hd : decode s.commandWord with
    | command i => exact .inl ⟨rfl, i, rfl, rfl⟩
    | illegal r => exact .inr ⟨rfl, r, rfl, rfl⟩

/-- A command executed answers a next state, whatever the state. -/
theorem exec_next (i : Instr) (s : State) : ∃ t, exec i s = .next t := by
  rw [exec_eq_complete]
  cases h : firstFault i s.config.memSize s.regs with
  | none => exact ⟨_, complete_ok h⟩
  | some e => exact ⟨_, complete_fault h⟩

/-- What a register write at an aligned offset can do (10_state R21). -/
theorem regWrite_cases (s : State) (off v : Word) :
    s.regWrite off v = s ∨
      (s.busy = false ∧ ∃ n, Reg.ofOffset off = some n ∧ n.isOperand = true ∧
        s.regWrite off v = { s with regs := s.regs.setOperand n v }) ∨
      (s.busy = false ∧ Reg.ofOffset off = some .cmd ∧ s.regWrite off v = s.issue v) ∨
      (s.busy = false ∧ Reg.ofOffset off = some .ctrl ∧ v.getLsbD 0 = true ∧ s.regWrite off v = s.softReset) := by
  unfold State.regWrite
  cases hn : Reg.ofOffset off with
  | none => exact .inl rfl
  | some n =>
    cases hb : s.busy with
    | true => exact .inl rfl
    | false =>
      cases n with
      | status | errcode | errinfo => exact .inl rfl
      | width | height | nframes | src | dst | ref | len => exact .inr (.inl ⟨rfl, _, rfl, rfl, rfl⟩)
      | cmd => exact .inr (.inr (.inl ⟨rfl, rfl, rfl⟩))
      | ctrl =>
        cases hv : v.getLsbD 0 with
        | false => exact .inl (if_neg (Bool.eq_false_iff.mp hv))
        | true => exact .inr (.inr (.inr ⟨rfl, rfl, rfl, if_pos hv⟩))

/-- The effect of a host write on one command under way: its destination bytes and the free-byte counter, no more; if a
check of the command fails, the one byte at most. -/
theorem scramble_cases (s : State) (a : Nat) (r : Registers) :
    s.scramble a r = s ∨
      (inDest r a = true ∧ ∃ b n, s.scramble a r = { s with mem := s.mem.write a b, freeCount := n }) ∨
      ∃ i f, liveCommand s.config.memSize r = some i ∧
        s.scramble a r = { s with
          mem := s.mem.store (footprint i r).dest.base (footprint i r).dest.size f
          freeCount := s.freeCount + (footprint i r).dest.size } := by
  unfold State.scramble
  cases liveCommand s.config.memSize r with
  | none =>
    cases hd : inDest r a with
    | false => exact .inl rfl
    | true => exact .inr (.inl ⟨rfl, _, _, rfl⟩)
  | some i => exact .inr (.inr ⟨i, _, rfl, rfl⟩)

/-- The destination region a command has, checks passing or not. -/
theorem inDest_eq_false {r : Registers} {a : Nat} :
    inDest r a = false ↔ ∀ i, decode r.cmd = .command i → (footprint i r).dest.holds a = false := by
  unfold inDest
  cases decode r.cmd with
  | command i =>
    refine ⟨fun h j hj => ?_, fun h => h i rfl⟩
    cases Decoded.command.inj hj
    exact h
  | illegal e => exact ⟨fun _ _ hj => by simp at hj, fun _ => rfl⟩

end Sys2Proof.Machine
end

