-- ==== Sys2Proof/Laws/Checks.lean ====
section
/-! SUPPORT. The fault checks against the conditions a host reads in the spec: each check passes exactly when its condition
holds, and all pass exactly when the command is ready. -/

namespace Sys2Proof.Machine

theorem Region.holds_iff {g : Region} {a : Nat} : g.holds a = true ↔ g.base ≤ a ∧ a < g.base + g.size := by
  simp [Region.holds]

theorem Region.not_holds_iff {g : Region} {a : Nat} : g.holds a = false ↔ ¬ (g.base ≤ a ∧ a < g.base + g.size) := by
  rw [← Region.holds_iff]; simp

theorem Region.inRange_iff {n : Nat} {g : Region} : g.inRange n = true ↔ g.base + g.size ≤ n := by
  simp [Region.inRange]

/-- The inequality form of 20_memory R63 says that an address is shared. -/
theorem Region.overlaps_iff {a b : Region} : a.overlaps b = true ↔ ∃ x, a.holds x = true ∧ b.holds x = true := by
  simp only [Region.overlaps, Bool.and_eq_true, decide_eq_true_eq, Region.holds_iff]
  constructor
  · rintro ⟨⟨⟨ha, hb⟩, h1⟩, h2⟩
    exact ⟨max a.base b.base, by omega⟩
  · rintro ⟨x, hx⟩
    omega

theorem Region.overlaps_eq_false {a b : Region} : a.overlaps b = false ↔ a.Apart b := by
  rw [← Bool.not_eq_true, Region.overlaps_iff]
  simp [Region.Apart]

theorem Footprint.referenceIs_iff {f : Footprint} {p : Region → Bool} :
    f.referenceIs p = true ↔ ∃ g, f.reference = some g ∧ p g = true := by
  cases h : f.reference <;> simp [Footprint.referenceIs, h]

theorem badDimension_iff {w : Word} : badDimension w = true ↔ w.toNat = 0 ∨ w.toNat % 2 = 1 := by
  simp [badDimension]

theorem badDimension_eq_false {w : Word} : badDimension w = false ↔ 0 < w.toNat ∧ w.toNat % 2 = 0 := by
  rw [← Bool.not_eq_true, badDimension_iff]
  omega

theorem checkGeometry_none {r : Registers} : checkGeometry r = none ↔ GeometryOk r := by
  unfold checkGeometry
  constructor
  · intro h
    split at h
    · cases h
    · split at h
      · cases h
      · rename_i h1 h2
        exact ⟨badDimension_eq_false.mp (by simpa using h1), badDimension_eq_false.mp (by simpa using h2)⟩
  · rintro ⟨h1, h2⟩
    have h1 := badDimension_eq_false.mpr h1
    have h2 := badDimension_eq_false.mpr h2
    simp [h1, h2]

theorem isSequence_iff {i : Instr} : isSequence i = true ↔ i = .deltaEnc ∨ i = .deltaDec := by
  cases i <;> simp [isSequence]

theorem readsLength_iff {i : Instr} : readsLength i = true ↔ i = .deltaDec := by
  cases i <;> simp [readsLength]

theorem checkEmpty_none {i : Instr} {r : Registers} :
    checkEmpty i r = none ↔ (i = .deltaEnc ∨ i = .deltaDec → 1 ≤ r.n) := by
  rw [← isSequence_iff]
  unfold checkEmpty
  cases isSequence i <;> simp
  omega

theorem checkLength_none {i : Instr} {r : Registers} :
    checkLength i r = none ↔ (i = .deltaDec → r.len.toNat = r.n * r.yuvBytes) := by
  rw [← readsLength_iff]
  unfold checkLength
  cases readsLength i <;> simp

theorem checkRange_eq (i : Instr) (n : Nat) (r : Registers) : checkRange i n r =
    if !(footprint i r).source.inRange n then some ⟨.busError, .src⟩
    else if (footprint i r).referenceIs (fun g => !g.inRange n) then some ⟨.busError, .ref⟩
    else if !(footprint i r).dest.inRange n then some ⟨.busError, .dst⟩
    else none := rfl

theorem checkOverlap_eq (i : Instr) (r : Registers) : checkOverlap i r =
    if (footprint i r).dest.overlaps (footprint i r).source then some ⟨.overlap, .src⟩
    else if (footprint i r).referenceIs (footprint i r).dest.overlaps then some ⟨.overlap, .ref⟩
    else none := rfl

theorem checkRange_none {i : Instr} {n : Nat} {r : Registers} :
    checkRange i n r = none ↔ RegionsInRange i n r := by
  rw [checkRange_eq]
  have hr := Footprint.referenceIs_iff (f := footprint i r) (p := fun g => !g.inRange n)
  simp only [Bool.not_eq_true', ← Bool.not_eq_true, Region.inRange_iff] at hr ⊢
  constructor
  · intro h
    split at h
    · cases h
    · split at h
      · cases h
      · split at h
        · cases h
        · rename_i h1 h2 h3
          exact ⟨by omega, fun g hg => by
            by_contra hc
            exact h2 (hr.mpr ⟨g, hg, hc⟩), by omega⟩
  · rintro ⟨h1, h2, h3⟩
    rw [if_neg (by omega), if_neg, if_neg (by omega)]
    intro h
    obtain ⟨g, hg, hc⟩ := hr.mp h
    exact hc (h2 g hg)

theorem checkOverlap_none {i : Instr} {r : Registers} : checkOverlap i r = none ↔ DestApart i r := by
  rw [checkOverlap_eq]
  have hr := Footprint.referenceIs_iff (f := footprint i r) (p := (footprint i r).dest.overlaps)
  constructor
  · intro h
    split at h
    · cases h
    · split at h
      · cases h
      · rename_i h1 h2
        refine ⟨Region.overlaps_eq_false.mp (by simpa using h1), fun g hg => Region.overlaps_eq_false.mp ?_⟩
        by_contra hc
        exact h2 (hr.mpr ⟨g, hg, by simpa using hc⟩)
  · rintro ⟨h1, h2⟩
    rw [if_neg (by simpa using Region.overlaps_eq_false.mpr h1), if_neg]
    intro h
    obtain ⟨g, hg, hc⟩ := hr.mp h
    rw [Region.overlaps_eq_false.mpr (h2 g hg)] at hc
    cases hc

/-- No check fails exactly when the command is ready. -/
theorem firstFault_none_iff {i : Instr} {n : Nat} {r : Registers} : firstFault i n r = none ↔ Ready i n r := by
  rw [firstFault_eq_none, checkGeometry_none, checkEmpty_none, checkLength_none, checkRange_none, checkOverlap_none]
  exact ⟨fun ⟨g, e, l, ra, o⟩ => ⟨⟨g, e, l⟩, ra, o⟩, fun ⟨⟨g, e, l⟩, ra, o⟩ => ⟨g, e, l, ra, o⟩⟩

/-- A command that is live is ready. -/
theorem liveCommand_ready {n : Nat} {r : Registers} {i : Instr} (h : liveCommand n r = some i) : Ready i n r :=
  firstFault_none_iff.mp (liveCommand_eq_some h).2

/-- A ready command completes with its memory effect. -/
theorem exec_ready {i : Instr} {s : State} (h : s.ReadyFor i) :
    exec i s = .next (s.storeResult i (effectOf i)).succeed := by
  rw [exec_eq_complete]
  exact complete_ok (firstFault_none_iff.mpr h)

/-- A command that is not ready enters the fault of its first failing check. -/
theorem exec_not_ready {i : Instr} {s : State} (h : ¬ s.ReadyFor i) :
    ∃ e, firstFault i s.config.memSize s.regs = some e ∧ exec i s = .next (s.raise e) := by
  rw [exec_eq_complete]
  cases hf : firstFault i s.config.memSize s.regs with
  | none => exact absurd (firstFault_none_iff.mp hf) h
  | some e => exact ⟨e, rfl, complete_fault hf⟩

/-- Every report of a check is one of the reportable pairs. -/
theorem firstFault_reportable {i : Instr} {n : Nat} {r : Registers} {e : Report} (h : firstFault i n r = some e) :
    (e.kind.code, e.info.offset) ∈ reportable := by
  unfold firstFault at h
  have key : ∀ x y : Option Report, (x <|> y) = some e → x = some e ∨ y = some e := by
    intro x y; cases x with
    | none => exact .inr
    | some _ => exact .inl
  rcases key _ _ h with h | h
  · unfold checkGeometry at h; split at h <;> [skip; split at h] <;> simp at h <;> subst h <;> decide
  rcases key _ _ h with h | h
  · unfold checkEmpty at h; split at h <;> simp at h; subst h; decide
  rcases key _ _ h with h | h
  · unfold checkLength at h; split at h <;> simp at h; subst h; decide
  rcases key _ _ h with h | h
  · rw [checkRange_eq] at h; split at h <;> [skip; split at h <;> [skip; split at h]] <;> simp at h <;> subst h <;> decide
  · rw [checkOverlap_eq] at h; split at h <;> [skip; split at h] <;> simp at h <;> subst h <;> decide

end Sys2Proof.Machine
end

