-- ==== Sys2Proof/Machine/HostProgram.lean ====
section
/-! DEFINITION. The spec's way of writing host programs, one transaction a line (30_encoding R98), and its two
pseudo-instructions (R99), as stretches of an agenda. -/

namespace Sys2Proof.Machine

/-- `WR reg, value` (30_encoding R98). -/
def hostWR (n : Reg) (v : Word) : List Event := [.host (.regWrite n.offset v)]

/-- `RD reg` (30_encoding R98). -/
def hostRD (n : Reg) : List Event := [.host (.regRead n.offset)]

/-- `ST addr, b0 b1 ...` (30_encoding R98). -/
def hostST (addr : Nat) : List Byte → List Event
  | []      => []
  | b :: bs => .host (.memWrite addr b) :: hostST (addr + 1) bs

/-- `LD addr, n` (30_encoding R98). -/
def hostLD (addr n : Nat) : List Event := (List.range n).map (fun k => .host (.memRead (addr + k)))

/-- `WAIT`: polls of `STATUS` until one reads `BUSY = 0` (30_encoding R99). Here the first `polls` of them come before
the engine's completion step and the last one after it; any finite number may (70_reset_and_hazards R229). -/
def hostWAIT (polls : Nat) : List Event :=
  (List.replicate polls (hostRD .status)).flatten ++ .engine :: hostRD .status

/-- `RUN m`: the word of `m` written to `CMD`, then `WAIT` (30_encoding R99). -/
def hostRUN (polls : Nat) (i : Instr) : List Event := hostWR .cmd (encode i) ++ hostWAIT polls

/-- `WR reg, value` for a value given as a number. A value is to lie in `0 .. 2^32 - 1` (00_scope R11); of one that does not,
the low 32 bits are written. DESIGN CHOICE, log entry 17. -/
def hostWRNat (n : Reg) (v : Nat) : List Event := hostWR n (BitVec.ofNat 32 v)

end Sys2Proof.Machine
end

