-- ==== Sys2Proof/Machine/HostPipeline.lean ====
section
/-! DEFINITION. The host procedures of 42_host_pipeline: `read_frames`, the entropy stage, `encode` and `decode`. The
compressor is a parameter (93_implementation_defined U7), for the spec does not name it (00_scope R5). A procedure that
drives the block stands here as the straight line of its program, an agenda, and as the call itself, which runs that line
step by step, ends at the first fault it polls and gives its caller a value or one failure. -/

namespace Sys2Proof.Machine

/-! ### Frames and the entropy stage -/

/-- `read_frames` (42_host_pipeline R170): successive chunks of `frameSize` bytes, a shorter trailing one dropped. For a
`frameSize` of zero, which R170 leaves to the caller and for which 00_scope R9 defines no `div`, it gives no frames. DESIGN
CHOICE, log entry 16. -/
def readFrames (frameSize : Nat) (bytes : List Byte) : List (List Byte) :=
  (List.range (bytes.length / frameSize)).map (fun k => (bytes.drop (k * frameSize)).take frameSize)

/-- The bytes of one RGB24 frame of this geometry (00_scope R12). -/
def rgbFrame (w h : Nat) : Nat := w * h * 3

/-- The bytes of one planar frame of this geometry (00_scope R12). -/
def yuvFrame (w h : Nat) : Nat := w * h + 2 * ((w / 2) * (h / 2))

/-- The entropy stage, a pair of host procedures; `decompress` fails on what is no valid stream (42_host_pipeline R174). -/
structure Entropy where
  compress   : List Byte → List Byte
  decompress : List Byte → Option (List Byte)

/-- The one property the spec relies on (42_host_pipeline R174). -/
def Entropy.Lossless (e : Entropy) : Prop := ∀ p, e.decompress (e.compress p) = some p

/-! ### Failures (42_host_pipeline R177: "kind + offending parameter") -/

/-- The offending parameter of a failure: the register at this offset (10_state R29), or the blob given to `decode`. -/
inductive Offender where
  | register (offset : Word)
  | blob
  deriving DecidableEq, Repr

/-- A failure as the caller gets it. The kind is a code of the block's numbering, which serves for all four kinds
(60_exceptions R196). -/
structure Failure where
  kind     : Word
  offender : Offender
  deriving DecidableEq, Repr

/-- CorruptBlob, which the host's `decompress` finds. That the blob is the parameter it names is DEDUCED, log entry 18. -/
def Failure.corruptBlob : Failure := ⟨ErrorKind.corruptBlob.code, .blob⟩

/-- GeometryMismatch, which the host finds itself when `LEN` cannot hold the length of the payload (42_host_pipeline R176).
That it names `LEN`, as the block does for that kind (60_exceptions R195), is DEDUCED, log entry 18. -/
def Failure.lengthTooLong : Failure := ⟨ErrorKind.geometryMismatch.code, .register Reg.len.offset⟩

/-- What a call gives its caller: a value, or one failure (42_host_pipeline R177). -/
inductive Answer (α : Type) where
  | value (a : α)
  | failed (f : Failure)
  deriving DecidableEq, Repr

/-- The answer with its value worked on; a failure is passed on. -/
def Answer.map {α β : Type} (f : α → β) : Answer α → Answer β
  | .value a  => .value (f a)
  | .failed e => .failed e

/-! ### Programs -/

/-- One command of a host program: the lines that write its operands, then `RUN` (30_encoding R100). -/
structure HostCommand where
  operands : List Event
  command  : Instr
  deriving DecidableEq, Repr

/-- A host program over the block: lines, commands, lines. -/
structure HostProgram where
  first    : List Event
  commands : List HostCommand
  last     : List Event
  deriving DecidableEq, Repr

/-- The lines of one command, its `WAIT` with this many polls before the completion. -/
def HostCommand.lines (c : HostCommand) (polls : Nat) : List Event := c.operands ++ hostRUN polls c.command

/-- The lines of the commands in order, the `k`-th with `polls k` polls: any finite number each (70_reset_and_hazards
R229). -/
def commandLines (polls : Nat → Nat) : List HostCommand → List Event
  | []      => []
  | c :: cs => c.lines (polls 0) ++ commandLines (fun k => polls (k + 1)) cs

/-- The program as one straight line, an agenda that takes no notice of `ERR`: what a host does that goes on to the last
line after a fault, of which the procedures R175, R176 say nothing. DESIGN CHOICE, log entry 19; `HostProgram.run` is the
host that stops and reports. -/
def HostProgram.lines (p : HostProgram) (polls : Nat → Nat) : List Event :=
  p.first ++ commandLines polls p.commands ++ p.last

/-- `encode` up to the `LD` of step 4 (42_host_pipeline R175): `n` RGB frames at `a`, a YUV work area at `b`, the deltas at
`c`. -/
def encodeProgram (a b c w h n : Nat) : HostProgram where
  first    := hostWRNat .width w ++ hostWRNat .height h
  commands := (List.range n).map (fun k =>
      ⟨hostWRNat .src (a + k * rgbFrame w h) ++ hostWRNat .dst (b + k * yuvFrame w h), .cscFwd⟩) ++
    [⟨hostWRNat .nframes n ++ hostWRNat .src b ++ hostWRNat .dst c, .deltaEnc⟩]
  last     := hostLD c (n * yuvFrame w h)

/-- `decode` from `ST` on (42_host_pipeline R176): the payload placed at `c`, a YUV work area at `b`, the RGB frames at
`a`. -/
def decodeProgram (a b c w h n : Nat) (payload : List Byte) : HostProgram where
  first    := hostST c payload ++ hostWRNat .width w ++ hostWRNat .height h ++ hostWRNat .nframes n ++
    hostWRNat .len payload.length
  commands := ⟨hostWRNat .src c ++ hostWRNat .dst b, .deltaDec⟩ :: (List.range n).map (fun k =>
      ⟨hostWRNat .src (b + k * yuvFrame w h) ++ hostWRNat .dst (a + k * rgbFrame w h), .cscInv⟩)
  last     := hostLD a (n * rgbFrame w h)

/-- The straight line of `encode` up to the payload that the host then compresses. After a fault it goes on to the last line:
DESIGN CHOICE, log entry 19. -/
def hostEncode (polls : Nat → Nat) (a b c w h n : Nat) : List Event := (encodeProgram a b c w h n).lines polls

/-- The straight line of `decode` for a payload whose length `LEN` can hold. After a fault it goes on to the last line: DESIGN
CHOICE, log entry 19. -/
def hostDecodePayload (polls : Nat → Nat) (a b c w h n : Nat) (payload : List Byte) : List Event :=
  (decodeProgram a b c w h n payload).lines polls

/-- What a host procedure does first: drive the block, or report a failure to its caller without starting it. -/
inductive HostCall where
  | run (events : List Event)
  | report (f : Failure)
  deriving DecidableEq, Repr

/-- The payload of a blob whose length `LEN` can hold, or the failure the host reports itself (42_host_pipeline R176): the
blob cannot be decompressed, or the payload's length does not fit in 32 bits. -/
def Entropy.payload (e : Entropy) (blob : List Byte) : Answer (List Byte) :=
  match e.decompress blob with
  | none => .failed .corruptBlob
  | some p => if p.length < 2 ^ 32 then .value p else .failed .lengthTooLong

/-- `decode` as a program (42_host_pipeline R176): the host's own report, or the line that decodes the payload. -/
def hostDecode (e : Entropy) (polls : Nat → Nat) (a b c w h n : Nat) (blob : List Byte) : HostCall :=
  match e.payload blob with
  | .value p  => .run (hostDecodePayload polls a b c w h n p)
  | .failed f => .report f

/-! ### Calls -/

/-- What the model answers for a stretch of the host's doings: a result, unless one of its own accesses stops the model. -/
abbrev Ran (α : Type) := Host.Outcome (State × α) Fault Refusal

/-- The next stretch, from the state and the result of the one before. -/
def Ran.andThen {α β : Type} (o : Ran α) (f : State → α → Ran β) : Ran β :=
  match o with
  | .next r    => f r.1 r.2
  | .fault e   => .fault e
  | .refused e => .refused e

/-- The byte a line has loaded, if it is a memory read. -/
def loadedBy : Event → State → List Byte
  | .host (.memRead _), t => [t.memData]
  | .host (.memWrite _ _), _ | .host (.regRead _), _ | .host (.regWrite _ _), _ | .host .hardReset, _ | .engine, _ => []

/-- The lines happen, one step each, nothing else on the agenda; the result is the bytes they load, in order. -/
def runLines (s : State) : List Event → Ran (List Byte)
  | []        => .next (s, [])
  | e :: rest =>
    match step (s.withAgenda (e :: rest)) with
    | .next t    => (runLines t rest).andThen (fun u l => .next (u, loadedBy e t ++ l))
    | .fault r   => .fault r
    | .refused r => .refused r

/-- The host reads the kind and the parameter of a latched fault, `RD ERRCODE` and `RD ERRINFO` (30_encoding R99). -/
def readFailure (s : State) : Ran Failure :=
  (runLines s (hostRD .errcode)).andThen (fun t _ =>
    (runLines t (hostRD .errinfo)).andThen (fun u _ => .next (u, ⟨t.regData, .register u.regData⟩)))

/-- The commands in order. After each `WAIT` the host examines the last value read (30_encoding R99): with bit 2 set it
reads the failure and goes no further, since "a call runs to completion or fails" and is not retried (42_host_pipeline
R177, 10_state R31). DEDUCED, log entry 19. -/
def runCommands (polls : Nat → Nat) (s : State) : List HostCommand → Ran (Answer Unit)
  | []      => .next (s, .value ())
  | c :: cs =>
    (runLines s (c.lines (polls 0))).andThen (fun t _ =>
      if statusErr t.regData then (readFailure t).andThen (fun u f => .next (u, .failed f))
      else runCommands (fun k => polls (k + 1)) t cs)

/-- The program as a call: its first lines, its commands, and if none fails its last lines, whose bytes are the answer. It
writes no `CTRL`, so a failure stays latched. DESIGN CHOICE, log entry 19. -/
def HostProgram.run (p : HostProgram) (polls : Nat → Nat) (s : State) : Ran (Answer (List Byte)) :=
  (runLines s p.first).andThen (fun t _ =>
    (runCommands polls t p.commands).andThen (fun u r =>
      match r with
      | .failed f => .next (u, .failed f)
      | .value _  => (runLines u p.last).andThen (fun v l => .next (v, .value l))))

/-- `encode(frames) -> blob` (42_host_pipeline R175): the `n` frames at `a` transformed, differenced, loaded and compressed. -/
def encodeCall (e : Entropy) (polls : Nat → Nat) (a b c w h n : Nat) (s : State) : Ran (Answer (List Byte)) :=
  ((encodeProgram a b c w h n).run polls s).andThen (fun t r => .next (t, r.map e.compress))

/-- `decode(blob, frame_count, width, height) -> frames` (42_host_pipeline R176): the blob decompressed, its payload decoded
and transformed, the frames loaded. -/
def decodeCall (e : Entropy) (polls : Nat → Nat) (a b c w h n : Nat) (blob : List Byte) (s : State) :
    Ran (Answer (List (List Byte))) :=
  match e.payload blob with
  | .failed f => .next (s, .failed f)
  | .value p  =>
    ((decodeProgram a b c w h n p).run polls s).andThen (fun t r => .next (t, r.map (readFrames (rgbFrame w h))))

end Sys2Proof.Machine
end

