-- ==== Sys2Proof/Laws/HostPipeline.lean ====
section
/-! SUPPORT. What the host procedures of 42_host_pipeline can do: a stretch by its parts, a call by its program. -/

namespace Sys2Proof.Machine

@[simp] theorem Ran.andThen_next {α β : Type} (s : State) (a : α) (f : State → α → Ran β) :
    Ran.andThen (.next (s, a)) f = f s a := rfl

@[simp] theorem Ran.andThen_fault {α β : Type} (e : Fault) (f : State → α → Ran β) :
    Ran.andThen (.fault e) f = .fault e := rfl

@[simp] theorem Ran.andThen_refused {α β : Type} (e : Refusal) (f : State → α → Ran β) :
    Ran.andThen (.refused e) f = .refused e := rfl

/-- Two stretches come to a result exactly if the first does and the second does from there. -/
theorem Ran.andThen_eq_next {α β : Type} {o : Ran α} {f : State → α → Ran β} {r : State × β} :
    o.andThen f = .next r ↔ ∃ s a, o = .next (s, a) ∧ f s a = .next r := by
  rcases o with ⟨s, a⟩ | _ | _ <;> simp [Ran.andThen]

theorem Ran.andThen_assoc {α β γ : Type} (o : Ran α) (f : State → α → Ran β) (g : State → β → Ran γ) :
    (o.andThen f).andThen g = o.andThen (fun s a => (f s a).andThen g) := by
  cases o <;> rfl

@[simp] theorem Answer.map_value {α β : Type} (f : α → β) (a : α) : (Answer.value a).map f = .value (f a) := rfl

@[simp] theorem Answer.map_failed {α β : Type} (f : α → β) (e : Failure) : (Answer.failed e).map f = .failed e := rfl

@[simp] theorem runLines_nil (s : State) : runLines s [] = .next (s, []) := rfl

/-- One line comes to a result exactly if its step answers and the rest does from there. -/
theorem runLines_cons {s : State} {e : Event} {rest : List Event} {r : State × List Byte} :
    runLines s (e :: rest) = .next r ↔
      ∃ t u l, step (s.withAgenda (e :: rest)) = .next t ∧ runLines t rest = .next (u, l) ∧
        r = (u, loadedBy e t ++ l) := by
  simp only [runLines]
  split
  · next t h => rw [Ran.andThen_eq_next]; simp [h, @eq_comm _ r]
  · next h => simp [h]
  · next h => simp [h]

@[simp] theorem commandLines_nil (polls : Nat → Nat) : commandLines polls [] = [] := rfl

@[simp] theorem commandLines_cons (polls : Nat → Nat) (c : HostCommand) (cs : List HostCommand) :
    commandLines polls (c :: cs) = c.lines (polls 0) ++ commandLines (fun k => polls (k + 1)) cs := rfl

/-- What a call on a program answers: after the first lines either one failure of its commands, and nothing more happens,
or all of them succeed and the bytes of the last lines are the value. -/
theorem HostProgram.run_cases {p : HostProgram} {polls : Nat → Nat} {s u : State} {r : Answer (List Byte)}
    (h : p.run polls s = .next (u, r)) :
    ∃ t l, runLines s p.first = .next (t, l) ∧
      ((∃ f, r = .failed f ∧ runCommands polls t p.commands = .next (u, .failed f)) ∨
       ∃ v m, r = .value m ∧ runCommands polls t p.commands = .next (v, .value ()) ∧ runLines v p.last = .next (u, m)) := by
  obtain ⟨t, l, ht, h⟩ := Ran.andThen_eq_next.mp h
  obtain ⟨v, a, hv, h⟩ := Ran.andThen_eq_next.mp h
  refine ⟨t, l, ht, ?_⟩
  cases a with
  | failed f => cases h; exact .inl ⟨f, rfl, hv⟩
  | value _ =>
    obtain ⟨w, m, hw, h⟩ := Ran.andThen_eq_next.mp h
    cases h
    exact .inr ⟨v, m, rfl, hv, hw⟩

/-- A lossless compressor gives back every payload whose length `LEN` can hold (42_host_pipeline R174). -/
theorem Entropy.Lossless.payload_compress {e : Entropy} (he : e.Lossless) {p : List Byte} (hp : p.length < 2 ^ 32) :
    e.payload (e.compress p) = .value p := by
  simp only [Entropy.payload, he p, if_pos hp]

/-- The two failures the host finds itself, and no other (42_host_pipeline R176). -/
theorem Entropy.payload_failed {e : Entropy} {blob : List Byte} {f : Failure} (h : e.payload blob = .failed f) :
    (e.decompress blob = none ∧ f = .corruptBlob) ∨
      ∃ p, e.decompress blob = some p ∧ 2 ^ 32 ≤ p.length ∧ f = .lengthTooLong := by
  unfold Entropy.payload at h
  split at h
  · next hd => cases h; exact .inl ⟨hd, rfl⟩
  · next p hd =>
    split at h
    · cases h
    · next hl => cases h; exact .inr ⟨p, hd, Nat.le_of_not_lt hl, rfl⟩

/-- A failure the host finds itself is reported with the block untouched (42_host_pipeline R174, R176). -/
theorem decodeCall_failed {e : Entropy} {blob : List Byte} {f : Failure} (h : e.payload blob = .failed f)
    (polls : Nat → Nat) (a b c w ht n : Nat) (s : State) :
    hostDecode e polls a b c w ht n blob = .report f ∧ decodeCall e polls a b c w ht n blob s = .next (s, .failed f) := by
  simp only [hostDecode, decodeCall, h, and_self]

end Sys2Proof.Machine
end

