-- ==== Sys2Proof/Laws/Layout.lean ====
section
/-! SUPPORT. The layouts of 20_memory R64 to R67 as offsets: which pixel an offset belongs to, that every input address of
a destination byte lies in a region the command reads, and what a ready command leaves at each address. -/

namespace Sys2Proof.Machine

/-- Row-major indices stay inside the plane. -/
theorem index_lt {y x w h : Nat} (hy : y < h) (hx : x < w) : y * w + x < w * h := by
  calc y * w + x < y * w + w := by omega
    _ = (y + 1) * w := by ring
    _ ≤ h * w := Nat.mul_le_mul_right w hy
    _ = w * h := Nat.mul_comm h w

theorem index_div {y x w : Nat} (hx : x < w) : (y * w + x) / w = y := by
  rw [Nat.mul_comm, Nat.mul_add_div (by omega), Nat.div_eq_of_lt hx, Nat.add_zero]

theorem index_mod {y x w : Nat} (hx : x < w) : (y * w + x) % w = x := by
  rw [Nat.mul_comm, Nat.mul_add_mod, Nat.mod_eq_of_lt hx]

/-- The row of an index inside a plane. -/
theorem div_lt_rows {k w h : Nat} (hk : k < w * h) : k / w < h := Nat.div_lt_of_lt_mul hk

/-- `CSC_FWD` takes luma from the pixel itself. -/
theorem fwdPixel_luma {r : Registers} {y x : Nat} (hy : y < r.h) (hx : x < r.w) :
    fwdPixel r (y * r.w + x) = (y, x) := by
  simp [fwdPixel, index_lt hy hx, index_div hx, index_mod hx]

/-- `CSC_FWD` takes both chroma samples of a block from its top-left pixel (40_colour_transform R116). -/
theorem fwdPixel_chroma {r : Registers} {i j : Nat} (hi : i < r.ch) (hj : j < r.cw) :
    fwdPixel r (r.w * r.h + (i * r.cw + j)) = (2 * i, 2 * j) ∧
      fwdPixel r (r.w * r.h + (r.cw * r.ch + (i * r.cw + j))) = (2 * i, 2 * j) := by
  have hk := index_lt hi hj
  simp [fwdPixel, Nat.mod_eq_of_lt hk, index_div hj, index_mod hj]

/-- The pixel that an offset of a planar frame is computed from is a pixel of the frame. -/
theorem fwdPixel_lt {r : Registers} (g : GeometryOk r) (k : Nat) :
    (fwdPixel r k).1 < r.h ∧ (fwdPixel r k).2 < r.w := by
  obtain ⟨⟨hw, hw2⟩, hh, hh2⟩ := g
  unfold fwdPixel
  split
  · rename_i h
    exact ⟨div_lt_rows h, Nat.mod_lt _ hw⟩
  · have hcw : 0 < r.cw := by simp only [Registers.cw]; omega
    have hch : 0 < r.ch := by simp only [Registers.ch]; omega
    have hj := Nat.mod_lt (k - r.w * r.h) (Nat.mul_pos hcw hch)
    have h1 := div_lt_rows hj
    have h2 := Nat.mod_lt ((k - r.w * r.h) % (r.cw * r.ch)) hcw
    have h3 : r.cw = r.w / 2 := rfl
    have h4 : r.ch = r.h / 2 := rfl
    exact ⟨by simp only; omega, by simp only; omega⟩

/-- The pixel of any byte of an RGB24 frame is a pixel of the frame. -/
theorem invPixel_lt {r : Registers} (g : GeometryOk r) {k : Nat} (hk : k < r.rgbBytes) :
    (invPixel r k).1 < r.h ∧ (invPixel r k).2 < r.w := by
  have h3 : k / 3 < r.w * r.h := Nat.div_lt_of_lt_mul (by unfold Registers.rgbBytes at hk; omega)
  exact ⟨div_lt_rows h3, Nat.mod_lt _ g.width_ok.1⟩

/-- Sample `c` of pixel `(y, x)` of an RGB24 frame is byte `3*(y*W + x) + c` of it. -/
theorem invPixel_at {r : Registers} {y x c : Nat} (hx : x < r.w) (hc : c < 3) :
    invPixel r (3 * (y * r.w + x) + c) = (y, x) := by
  have h : (3 * (y * r.w + x) + c) / 3 = y * r.w + x := by omega
  simp [invPixel, h, index_div hx, index_mod hx]

/-- What a ready command leaves in memory: in its destination region the effect's byte, or a free byte where the host has
interfered; elsewhere what was there. -/
theorem read_exec_ready (i : Instr) (s : State) (a : Nat) :
    (s.storeResult i (effectOf i)).succeed.mem.read a =
      if (footprint i s.regs).dest.holds a = true then
        if s.disturbed i (a - (footprint i s.regs).dest.base) = true
        then Config.freeByte (s.freeCount + (a - (footprint i s.regs).dest.base))
        else effectOf i s.config s.regs s.mem.read (a - (footprint i s.regs).dest.base)
      else s.mem.read a := by
  simp only [State.succeed_mem, State.storeResult_mem, Memory.read_store, Option.getD_some, Region.holds_iff]

/-- With a host that has touched nothing, no byte is disturbed. -/
theorem disturbed_nil {s : State} (h : s.touched = []) (i : Instr) (k : Nat) : s.disturbed i k = false := by
  simp [State.disturbed, h]

/-- A byte whose own address and input addresses the host has not written is not disturbed. -/
theorem disturbed_clear {s : State} {i : Instr} {k : Nat}
    (h : s.Clear (((footprint i s.regs).dest.base + k) :: inputsOf i s.regs k)) : s.disturbed i k = false := by
  simp only [State.disturbed, List.any_eq_false, disturbedBy]
  intro a ha hd
  have := h a (by simpa using hd)
  exact this ha

/-- The byte at an offset of the destination region after a ready command, the host having kept its hands off. -/
theorem read_exec_at {i : Instr} {s : State} {k : Nat} (hk : k < (footprint i s.regs).dest.size)
    (hd : s.disturbed i k = false) :
    (s.storeResult i (effectOf i)).succeed.mem.read ((footprint i s.regs).dest.base + k) =
      effectOf i s.config s.regs s.mem.read k := by
  have hh : (footprint i s.regs).dest.holds ((footprint i s.regs).dest.base + k) = true :=
    Region.holds_iff.mpr (by omega)
  rw [read_exec_ready, if_pos hh, Nat.add_sub_cancel_left, hd]
  rfl

/-- The addresses a destination byte is computed from lie in the regions the command reads (20_memory R63). -/
theorem inputsOf_in_regions {i : Instr} {n : Nat} {r : Registers} (hr : Ready i n r) {k : Nat}
    (hk : k < (footprint i r).dest.size) : ∀ a ∈ inputsOf i r k,
      (footprint i r).source.holds a = true ∨ ∃ g, (footprint i r).reference = some g ∧ g.holds a = true := by
  have g := hr.shaped.geometry
  intro a ha
  simp only [Region.holds_iff]
  cases i with
  | cscFwd =>
    obtain ⟨hy, hx⟩ := fwdPixel_lt g k
    have hlt := index_lt hy hx
    simp only [inputsOf, rgbAddr, List.mem_cons, List.not_mem_nil, or_false] at ha
    left
    simp only [footprint, Registers.rgbBytes]
    omega
  | cscInv =>
    obtain ⟨hy, hx⟩ := invPixel_lt g hk
    have hlt := index_lt hy hx
    have hcy : (invPixel r k).1 / 2 < r.ch := by have := g.height_ok; unfold Registers.ch; omega
    have hcx : (invPixel r k).2 / 2 < r.cw := by have := g.width_ok; unfold Registers.cw; omega
    have hc := index_lt hcy hcx
    simp only [inputsOf, yAddr, uAddr, vAddr, List.mem_cons, List.not_mem_nil, or_false] at ha
    left
    simp only [footprint, Registers.yuvBytes]
    simp only [Registers.cw, Registers.ch] at *
    omega
  | deltaEnc =>
    simp only [footprint] at hk ⊢
    simp only [inputsOf] at ha
    left
    split at ha <;> simp at ha <;> omega
  | deltaDec =>
    simp only [footprint] at hk ⊢
    simp only [inputsOf, frameAddr, List.mem_map, List.mem_range] at ha
    obtain ⟨j, hj, rfl⟩ := ha
    left
    have hf : 0 < r.yuvBytes := by
      rcases Nat.eq_zero_or_pos r.yuvBytes with h | h
      · rw [h] at hk; omega
      · exact h
    have hm := Nat.mod_lt k hf
    have hjk : j * r.yuvBytes ≤ k / r.yuvBytes * r.yuvBytes := Nat.mul_le_mul_right _ (by omega)
    have := Nat.div_add_mod k r.yuvBytes
    rw [Nat.mul_comm] at this
    omega
  | diff =>
    simp only [footprint] at hk ⊢
    simp only [inputsOf, List.mem_cons, List.not_mem_nil, or_false] at ha
    rcases ha with rfl | rfl
    · left; omega
    · right; exact ⟨_, rfl, by simp only; omega⟩
  | acc =>
    simp only [footprint] at hk ⊢
    simp only [inputsOf, List.mem_cons, List.not_mem_nil, or_false] at ha
    rcases ha with rfl | rfl
    · left; omega
    · right; exact ⟨_, rfl, by simp only; omega⟩

end Sys2Proof.Machine
end

