-- ==== Sys2Proof/Laws/PerInstr.lean ====
section
/-! SUPPORT. What holds of every command as syntax, one lemma per constructor. -/

namespace Sys2Proof.Laws

/-- The command's word is of format `C`: its fields are well formed, and they are what the word holds (30_encoding R90). -/
def Format.Statement (i : Instr) : Prop :=
  i.WellFormed ∧ opField (encode i) = i.fields.op ∧ rsvField (encode i) = 0

theorem Format.cscFwd : Format.Statement .cscFwd := by unfold Format.Statement Instr.WellFormed; decide
theorem Format.cscInv : Format.Statement .cscInv := by unfold Format.Statement Instr.WellFormed; decide
theorem Format.deltaEnc : Format.Statement .deltaEnc := by unfold Format.Statement Instr.WellFormed; decide
theorem Format.deltaDec : Format.Statement .deltaDec := by unfold Format.Statement Instr.WellFormed; decide
theorem Format.diff : Format.Statement .diff := by unfold Format.Statement Instr.WellFormed; decide
theorem Format.acc : Format.Statement .acc := by unfold Format.Statement Instr.WellFormed; decide

end Sys2Proof.Laws
end

