-- ==== Sys2Proof/Laws/Registers.lean ====
section
/-! SUPPORT. The register map: offsets and names correspond, and what reading gives after an operand write. -/

namespace Sys2Proof.Machine

@[simp] theorem ofOffset_offset (n : Reg) : Reg.ofOffset n.offset = some n := by cases n <;> rfl

@[simp] theorem aligned_offset (n : Reg) : aligned n.offset = true := by cases n <;> rfl

theorem ofOffset_some {off : Word} {n : Reg} (h : Reg.ofOffset off = some n) : off = n.offset := by
  apply BitVec.eq_of_toNat_eq
  unfold Reg.ofOffset at h
  split at h <;> simp_all <;> subst h <;> rfl

/-- An offset holds no register exactly when it is none of the twelve. -/
theorem ofOffset_none {off : Word} : Reg.ofOffset off = none ↔ ∀ n : Reg, off ≠ n.offset := by
  constructor
  · rintro h n rfl
    simp at h
  · intro h
    cases hn : Reg.ofOffset off with
    | none => rfl
    | some n => exact absurd (ofOffset_some hn) (h n)

/-- Offsets tell the registers apart. -/
theorem offset_inj {m n : Reg} (h : m.offset = n.offset) : m = n :=
  Option.some.inj ((ofOffset_offset m).symm.trans (h ▸ ofOffset_offset n))

/-- An operand register holds what was written to it (10_state R24). -/
theorem get_setOperand_same {n : Reg} (h : n.isOperand = true) (r : Registers) (v : Word) :
    (r.setOperand n v).get n = v := by
  cases n <;> first | rfl | cases h

/-- No register aliases another (10_state R24). -/
theorem get_setOperand_other {m n : Reg} (h : m ≠ n) (r : Registers) (v : Word) :
    (r.setOperand n v).get m = r.get m := by
  cases n <;> cases m <;> first | rfl | contradiction

end Sys2Proof.Machine
end

