-- ==== Sys2Proof/Laws/Steps.lean ====
section
/-! SUPPORT. The two ends of a completion step, the accesses of the host and a reset, each in the terms of Safety. -/

namespace Sys2Proof.Machine

/-- Fault entry in full (60_exceptions R199). -/
theorem raise_faulted (s : State) (e : Report) : Faulted s (s.raise e) e.kind.code e.info.offset where
  framed := ⟨fun n h1 h2 h3 => by cases n <;> first | rfl | contradiction,
    fun i hi => (reserved_kept _ i hi).2.2, rfl, rfl, ⟨rfl, rfl⟩, rfl⟩
  errcode := rfl
  errinfo := rfl
  err := err_faulted _
  idle := busy_faulted _
  done := done_faulted _
  mem := rfl

/-- Success in full (10_state R40). -/
theorem storeResult_succeeded (i : Instr) (s : State) : Succeeded i s (s.storeResult i (effectOf i)).succeed where
  framed := ⟨fun n h1 h2 h3 => by cases n <;> first | rfl | contradiction,
    fun i hi => (reserved_kept _ i hi).2.1, rfl, rfl, ⟨rfl, rfl⟩, rfl⟩
  errcode := rfl
  errinfo := rfl
  err := err_succeeded _
  idle := busy_succeeded _
  done := done_succeeded _
  mem := fun a ha => by rw [read_exec_ready, if_neg (by simp [ha])]

/-- A failing check is reported by a next state. -/
theorem exec_faulted {i : Instr} {s : State} {e : Report} (h : firstFault i s.config.memSize s.regs = some e) :
    ∃ t, exec i s = .next t ∧ Faulted s t e.kind.code e.info.offset :=
  ⟨s.raise e, by rw [exec_eq_complete]; exact complete_fault h, raise_faulted s e⟩

/-- No command is pending after a completion step. -/
theorem exec_idle {i : Instr} {s t : State} (h : exec i s = .next t) : t.busy = false := by
  rw [exec_eq_complete] at h
  rcases complete_cases h with ⟨e, -, rfl⟩ | ⟨-, rfl⟩
  · exact busy_faulted _
  · exact busy_succeeded _

/-- The byte a command stores at an address of its destination, the host having kept off what the byte depends on. -/
theorem read_stored {i : Instr} {s : State} {k p : Nat} (hk : k < (footprint i s.regs).dest.size)
    (hp : p = (footprint i s.regs).dest.base + k) (hc : s.Clear (p :: inputsOf i s.regs k)) :
    (s.storeResult i (effectOf i)).succeed.mem.read p = effectOf i s.config s.regs s.mem.read k := by
  subst hp
  exact read_exec_at hk (disturbed_clear hc)

/-- Which commands can report what (60_exceptions section 5). -/
theorem firstFault_kind {i : Instr} {n : Nat} {r : Registers} {e : Report} (h : firstFault i n r = some e) :
    (e.kind = .invalidGeometry ∧ e.info ≠ .ref) ∨
      (e.kind = .busError ∧ (e.info = .ref → i = .diff ∨ i = .acc)) ∨
      (e.kind = .overlap ∧ (e.info = .ref → i = .diff ∨ i = .acc)) ∨
      (e.kind = .emptyInput ∧ e.info ≠ .ref ∧ (i = .deltaEnc ∨ i = .deltaDec)) ∨
      (e.kind = .geometryMismatch ∧ e.info ≠ .ref ∧ i = .deltaDec) := by
  unfold firstFault at h
  have split_or : ∀ x y : Option Report, (x <|> y) = some e → x = some e ∨ y = some e := by
    intro x y
    cases x with
    | none => exact .inr
    | some _ => exact .inl
  have has_ref : ∀ p, (footprint i r).referenceIs p = true → i = .diff ∨ i = .acc := by
    intro p hp
    obtain ⟨g, hg, -⟩ := Footprint.referenceIs_iff.mp hp
    cases i <;> simp [footprint] at hg ⊢
  rcases split_or _ _ h with h | h
  · unfold checkGeometry at h
    split at h <;> [skip; split at h] <;> simp at h <;> subst h <;> simp
  rcases split_or _ _ h with h | h
  · unfold checkEmpty at h
    split at h
    · rename_i hh
      cases Option.some.inj h
      simp only [Bool.and_eq_true, isSequence_iff] at hh
      simp [hh]
    · cases h
  rcases split_or _ _ h with h | h
  · unfold checkLength at h
    split at h
    · rename_i hh
      cases Option.some.inj h
      simp only [Bool.and_eq_true, readsLength_iff] at hh
      simp [hh]
    · cases h
  rcases split_or _ _ h with h | h
  · rw [checkRange_eq] at h
    split at h <;> [skip; split at h <;> [skip; split at h]] <;> simp at h <;> subst h <;> simp
    exact has_ref _ ‹_›
  · rw [checkOverlap_eq] at h
    split at h <;> [skip; split at h] <;> simp at h <;> subst h <;> simp
    exact has_ref _ ‹_›

/-- What a hard reset does to the memory of a pending command (70_reset_and_hazards R222). -/
theorem abandon_cases (s : State) :
    (s.abandon = s ∧ ∀ i, decode s.regs.cmd = .command i → ¬ s.ReadyFor i) ∨
      ∃ i f n, decode s.regs.cmd = .command i ∧ s.ReadyFor i ∧
        s.abandon = { s with
          mem := s.mem.store (footprint i s.regs).dest.base (footprint i s.regs).dest.size f, freeCount := n } := by
  unfold State.abandon
  cases h : liveCommand s.config.memSize s.regs with
  | none =>
    refine .inl ⟨rfl, fun i hd hr => ?_⟩
    simp [liveCommand, hd, firstFault_none_iff.mpr hr] at h
  | some i => exact .inr ⟨i, _, _, (liveCommand_eq_some h).1, liveCommand_ready h, rfl⟩

/-- What the commands under way make of a host write: bytes of memory inside their destination regions, of those whose
checks fail only the byte written, and nothing else. -/
theorem foldl_scramble (l : List Registers) (s : State) (a : Nat) :
    ∃ m n, l.foldl (fun t r => t.scramble a r) s = { s with mem := m, freeCount := n } ∧
      (Memory.wf s.mem → Memory.wf m) ∧
      (a < s.config.memSize → (∀ c ∈ s.mem, c.1 < s.config.memSize) → ∀ c ∈ m, c.1 < s.config.memSize) ∧
      ∀ x, (∀ r ∈ l, ∀ i, liveCommand s.config.memSize r = some i → (footprint i r).dest.holds x = false) →
        (x = a → ∀ r ∈ l, inDest r a = false) → m.read x = s.mem.read x := by
  induction l generalizing s with
  | nil => exact ⟨s.mem, s.freeCount, rfl, id, fun _ => id, fun _ _ _ => rfl⟩
  | cons r l ih =>
    obtain ⟨m, n, h, hw, ha, hx⟩ := ih (s.scramble a r)
    have tail : ∀ {p : Registers → Prop}, (∀ q ∈ r :: l, p q) → ∀ q ∈ l, p q :=
      fun hp q hq => hp q (List.mem_cons_of_mem _ hq)
    rw [List.foldl_cons, h]
    rcases scramble_cases s a r with hs | ⟨hd, b, k, hs⟩ | ⟨i, f, hl, hs⟩ <;> rw [hs] at hw ha hx ⊢
    · exact ⟨m, n, rfl, hw, ha, fun x hr he => hx x (tail hr) fun e => tail (he e)⟩
    · refine ⟨m, n, rfl, fun hm => hw (Memory.wf_write hm _ _), fun hlt hm => ha hlt (Memory.addr_write hm hlt),
        fun x hr he => ?_⟩
      have hne : a ≠ x := fun e => by
        have := he e.symm r List.mem_cons_self
        rw [hd] at this
        cases this
      exact (hx x (tail hr) fun e => tail (he e)).trans (Memory.read_write_other _ _ hne)
    · refine ⟨m, n, rfl, fun hm => hw (Memory.wf_store hm _ _ _), fun hlt hm => ha hlt ?_, fun x hr he => ?_⟩
      · exact Memory.addr_store hm (liveCommand_ready hl).in_range.dest_in
      · exact (hx x (tail hr) fun e => tail (he e)).trans
          (Memory.read_store_outside _ _ (Region.not_holds_iff.mp (hr r List.mem_cons_self i hl)))

/-- What a host write can change: memory, which stays in canonical form and in range and keeps the bytes outside the
destinations of commands under way, and the model's own bookkeeping. -/
theorem hostWrite_cases (s : State) (a : Nat) (b : Byte) :
    ∃ m n, s.hostWrite a b =
        { s with mem := m, freeCount := n, touched := if s.busy then a :: s.touched else s.touched } ∧
      (Memory.wf s.mem → Memory.wf m) ∧
      (a < s.config.memSize → (∀ c ∈ s.mem, c.1 < s.config.memSize) → ∀ c ∈ m, c.1 < s.config.memSize) ∧
      ∀ x, (∀ r ∈ s.unpolled, ∀ i, liveCommand s.config.memSize r = some i → (footprint i r).dest.holds x = false) →
        (x = a → ∀ r ∈ s.unpolled, inDest r a = false) → m.read x = (s.mem.write a b).read x := by
  obtain ⟨m, n, h, hw, ha, hx⟩ := foldl_scramble s.unpolled
    { s with mem := s.mem.write a b, touched := if s.busy then a :: s.touched else s.touched } a
  exact ⟨m, n, h, fun hm => hw (Memory.wf_write hm _ _), fun hlt hm => ha hlt (Memory.addr_write hm hlt), hx⟩

/-- A command whose regions do not hold the address is not disturbed by a host write there. -/
theorem scramble_undisturbed {s : State} {a : Nat} {r : Registers} (hd : inDest r a = false)
    (h : ∀ i, liveCommand s.config.memSize r = some i →
      (footprint i r).dest.holds a = false ∧ (footprint i r).source.holds a = false ∧
        ∀ g, (footprint i r).reference = some g → g.holds a = false) (x : Nat) :
    (s.scramble a r).mem.read x = s.mem.read x := by
  unfold State.scramble
  cases hl : liveCommand s.config.memSize r with
  | none => simp [hd]
  | some i =>
    obtain ⟨h1, h2, h3⟩ := h i hl
    simp only [Memory.read_store]
    split
    · rename_i hx
      have : disturbedBy i r a (x - (footprint i r).dest.base) = false := by
        by_contra hc
        simp only [Bool.not_eq_false, disturbedBy, Bool.or_eq_true, beq_iff_eq, List.contains_iff_mem] at hc
        rcases hc with hc | hc
        · rw [Region.not_holds_iff] at h1
          omega
        · rcases inputsOf_in_regions (liveCommand_ready hl) (by omega) a hc with h | ⟨g, hg, h⟩
          · rw [h2] at h; cases h
          · rw [h3 g hg] at h; cases h
      simp [this]
    · rfl

/-- Nor are commands none of whose regions hold the address. -/
theorem foldl_scramble_undisturbed {l : List Registers} {s : State} {a : Nat} (hd : ∀ r ∈ l, inDest r a = false)
    (h : ∀ r ∈ l, ∀ i, liveCommand s.config.memSize r = some i →
      (footprint i r).dest.holds a = false ∧ (footprint i r).source.holds a = false ∧
        ∀ g, (footprint i r).reference = some g → g.holds a = false) (x : Nat) :
    (l.foldl (fun t r => t.scramble a r) s).mem.read x = s.mem.read x := by
  induction l generalizing s with
  | nil => rfl
  | cons r l ih =>
    have hc : (s.scramble a r).config = s.config := by
      rcases scramble_cases s a r with e | ⟨-, _, _, e⟩ | ⟨_, _, -, e⟩ <;> rw [e]
    refine (ih (fun q hq => hd q (List.mem_cons_of_mem _ hq)) ?_).trans
      (scramble_undisturbed (hd r List.mem_cons_self) (h r List.mem_cons_self) x)
    rw [hc]
    exact fun q hq => h q (List.mem_cons_of_mem _ hq)

end Sys2Proof.Machine
end

