-- ==== Sys2Proof/Tests/Slice0.lean ====
section
/-! SUPPORT. Tests of the model, each expected result from 95_test_vectors or the rule named, one step on a small state; then
the witnesses: for every obligation with hypotheses, states and operands that meet all of them together. -/

namespace Sys2Proof.Tests

open Sys2Proof.Machine

/-! ### Well-formedness and decoding -/

/-- A set reserved bit is refused (30_encoding R90), and so is a code that is none of the six (R92). -/
theorem test_wf_reserved : CommandFields.wellFormed ⟨0x01, 0x000001⟩ = false := by decide

theorem test_wf_op : CommandFields.wellFormed ⟨0x07, 0⟩ = false ∧ CommandFields.wellFormed ⟨0x00, 0⟩ = false := by
  decide

/-- The words of 95_test_vectors 2.6, bit by bit: `RSV` 24 zero bits, then `OP`. -/
theorem test_decode_colour :
    decode 0b000000000000000000000000_00000001#32 = .command .cscFwd ∧
    decode 0b000000000000000000000000_00000010#32 = .command .cscInv := by decide

theorem test_decode_delta :
    decode 0b000000000000000000000000_00000011#32 = .command .deltaEnc ∧
    decode 0b000000000000000000000000_00000100#32 = .command .deltaDec ∧
    decode 0b000000000000000000000000_00000101#32 = .command .diff ∧
    decode 0b000000000000000000000000_00000110#32 = .command .acc := by decide

theorem test_decode_illegal :
    decode 0x00000000 = .illegal (.unassignedOp 0x00) ∧ decode 0x00000007 = .illegal (.unassignedOp 0x07) ∧
    decode 0x000000FF = .illegal (.unassignedOp 0xFF) ∧ decode 0x00000101 = .illegal (.reservedBits 0x000001) ∧
    decode 0x80000001 = .illegal (.reservedBits 0x800000) := by decide

/-! ### Pixel and sample arithmetic -/

/-- V-P2, V-P3, V-P6, V-P10 of 95_test_vectors 2.1. -/
theorem test_forward_pixels :
    let c := CoefFwd.document
    (fwdY c 255 255 255, fwdU c 255 255 255, fwdV c 255 255 255) = (255, 114, 127) ∧
    (fwdY c 255 0 0, fwdU c 255 0 0, fwdV c 255 0 0) = (76, 84, 255) ∧
    (fwdY c 255 255 0, fwdU c 255 255 0, fwdV c 255 255 0) = (225, 0, 148) ∧
    (fwdY c 1 1 1, fwdU c 1 1 1, fwdV c 1 1 1) = (1, 127, 127) := by decide

/-- V-I5, V-I11, V-I18, V-I21 of 95_test_vectors 2.2. -/
theorem test_inverse_pixels :
    let c := CoefInv.document
    (invR c 76 84 255, invG c 76 84 255, invB c 76 84 255) = (254, 0, 0) ∧
    (invR c 0 255 255, invG c 0 255 255, invB c 0 255 255) = (178, 0, 225) ∧
    (invR c 200 100 150, invG c 200 100 150, invB c 200 100 150) = (230, 193, 150) ∧
    (invR c 254 128 129, invG c 254 128 129, invB c 254 128 129) = (255, 253, 254) := by decide

/-- The narrowing corner cases after 95_test_vectors 2.1: 256.7, 300.2, -0.5, -1.0, -1.5. -/
theorem test_wrap8_corners :
    (wrap8 ⟨2567, 10⟩, wrap8 ⟨3002, 10⟩, wrap8 ⟨-1, 2⟩, wrap8 ⟨-1, 1⟩, wrap8 ⟨-3, 2⟩) = (0, 44, 0, 255, 255) := by decide

/-- Rows of 95_test_vectors 2.4. -/
theorem test_delta_samples :
    (sub8 0 255, sub8 76 80, sub8 100 200, add8 255 255, add8 254 84) = (1, 252, 156, 254, 82) := by decide

/-! ### Commands -/

/-- Operands for the tests: 2 by 2 frames, source at 0x10, destination at 0x40, reference at 0x20. -/
def smallRegs (w : Word) : Registers :=
  { Registers.reset with cmd := w, status := 0b001, width := 2, height := 2, src := 0x10, dst := 0x40, ref := 0x20 }

/-- The registers of `smallRegs` with frames and a length. -/
def seqRegs (w n l : Word) : Registers := { smallRegs w with nframes := n, len := l }

/-- A pending command on a memory that holds the given bytes from 0x10 on. -/
def pendingState (r : Registers) (bs : List Byte) : State :=
  { State.reset with regs := r, unpolled := [r], mem := Memory.store [] 0x10 bs.length (fun k => bs[k]?) }

/-- The `n` bytes at an address after one step, with `STATUS`, or nothing if there is no next state. -/
def after (s : State) (a n : Nat) : Option (Word × List Byte) :=
  match step s with
  | .next t => some (t.regs.status, (List.range n).map (fun k => t.mem.read (a + k)))
  | .fault _ => none
  | .refused _ => none

/-- `STATUS`, `ERRCODE`, `ERRINFO` after one step. -/
def report (s : State) : Option (Word × Word × Word) :=
  match step s with
  | .next t => some (t.regs.status, t.regs.errcode, t.regs.errinfo)
  | .fault _ => none
  | .refused _ => none

/-- V-F1 of 95_test_vectors 2.3. -/
theorem test_csc_fwd :
    after (pendingState (smallRegs 1) [0xFF, 0, 0, 0, 0xFF, 0, 0, 0, 0xFF, 0xFF, 0xFF, 0xFF]) 0x40 6 =
      some (2, [0x4C, 0x95, 0x1D, 0xFF, 0x54, 0xFF]) := by decide +kernel

/-- V-F1 of 95_test_vectors 2.3, and the byte after the destination region. -/
theorem test_csc_inv :
    after (pendingState (smallRegs 2) [0x4C, 0x95, 0x1D, 0xFF, 0x54, 0xFF]) 0x40 13 =
      some (2, [0xFE, 0, 0, 0xFF, 0x49, 0x47, 0xCF, 0, 0, 0xFF, 0xB3, 0xB1, 0xAA]) := by decide +kernel

/-- V-F2 of 95_test_vectors 2.3: the luma byte 0x80 of the grey pixel shows exact arithmetic. -/
theorem test_csc_fwd_wide :
    after (pendingState { smallRegs 1 with width := 4 } [0xFF, 0, 0, 0, 0xFF, 0, 0, 0, 0xFF, 0xFF, 0xFF, 0xFF,
      0, 0, 0, 0x80, 0x80, 0x80, 0xFF, 0xFF, 0, 0x0C, 0x22, 0x38]) 0x40 12 =
      some (2, [0x4C, 0x95, 0x1D, 0xFF, 0x00, 0x80, 0xE1, 0x1D, 0x54, 0xF2, 0xFF, 0x6B]) := by decide +kernel

/-- V-F2 of 95_test_vectors 2.3, the last pixels of both rows: each block has its own chroma sample. -/
theorem test_csc_inv_wide :
    after (pendingState { smallRegs 2 with width := 4 }
      [0x4C, 0x95, 0x1D, 0xFF, 0x00, 0x80, 0xE1, 0x1D, 0x54, 0xF2, 0xFF, 0x6B]) 0x46 18 =
      some (2, [0x00, 0x04, 0xE7, 0xE1, 0xE6, 0xFF, 0xB2, 0, 0, 0xFF, 0x34, 0x32, 0xC3, 0xC8, 0xFF, 0x00, 0x04, 0xE7]) := by
  decide +kernel

/-- V-D1 of 95_test_vectors 2.5, source at 0x10, reference at 0x20. -/
theorem test_diff :
    after (pendingState (smallRegs 5) ([0x4C, 0x95, 0x1D, 0xFF, 0x54, 0xFF] ++ List.replicate 10 0xAA ++
      [0x50, 0x90, 0x1D, 0x00, 0x54, 0xFE])) 0x40 6 = some (2, [0xFC, 0x05, 0x00, 0xFF, 0x00, 0x01]) := by decide +kernel

/-- V-D3 of 95_test_vectors 2.5: source and reference may be one region. -/
theorem test_diff_same :
    after (pendingState { smallRegs 5 with ref := 0x10 } [1, 2, 3, 4, 5, 255]) 0x40 6 = some (2, [0, 0, 0, 0, 0, 0]) := by
  decide +kernel

/-- V-D2 of 95_test_vectors 2.5. -/
theorem test_acc :
    after (pendingState (smallRegs 6) ([0xFC, 0x05, 0x00, 0xFF, 0x00, 0x01] ++ List.replicate 10 0xAA ++
      [0x50, 0x90, 0x1D, 0x00, 0x54, 0xFE])) 0x40 6 = some (2, [0x4C, 0x95, 0x1D, 0xFF, 0x54, 0xFF]) := by decide +kernel

/-- The frames of V-D4 of 95_test_vectors 2.5. -/
def frames3 : List Byte :=
  [0x4C, 0x95, 0x1D, 0xFF, 0x54, 0xFF, 0x51, 0x95, 0x1D, 0x80, 0x52, 0xF1, 0x51, 0x95, 0x1E, 0x7F, 0x52, 0xF1]

/-- Their delta sequence. -/
def deltas3 : List Byte :=
  [0x4C, 0x95, 0x1D, 0xFF, 0x54, 0xFF, 0x05, 0x00, 0x00, 0x81, 0xFE, 0xF2, 0x00, 0x00, 0x01, 0xFF, 0x00, 0x00]

/-- V-D4 of 95_test_vectors 2.5. -/
theorem test_delta_enc : after (pendingState (seqRegs 3 3 0) frames3) 0x40 18 = some (2, deltas3) := by decide +kernel

/-- V-D6 of 95_test_vectors 2.5. -/
theorem test_delta_dec : after (pendingState (seqRegs 4 3 18) deltas3) 0x40 18 = some (2, frames3) := by decide +kernel

/-! ### Faults (95_test_vectors 2.7) -/

/-- F3, F5: an illegal word, before the geometry is looked at. -/
theorem test_fault_illegal :
    report (pendingState (smallRegs 0x101) []) = some (4, 5, 0) ∧
    report (pendingState { Registers.reset with cmd := 0xFF, status := 1 } []) = some (4, 5, 0) := by decide +kernel

/-- F8, F9, F14: width before height, both before the frame count. -/
theorem test_fault_geometry :
    report (pendingState { smallRegs 1 with width := 5, height := 0 } []) = some (4, 1, 0x10) ∧
    report (pendingState { smallRegs 1 with width := 4, height := 0 } []) = some (4, 1, 0x14) ∧
    report (pendingState { seqRegs 4 0 5 with height := 3 } []) = some (4, 1, 0x14) := by decide +kernel

/-- F13, F16, F19: no frames before the length; an exact multiple is a mismatch; no 32-bit product. -/
theorem test_fault_length :
    report (pendingState (seqRegs 4 0 0) []) = some (4, 2, 0x18) ∧
    report (pendingState (seqRegs 4 2 24) []) = some (4, 4, 0x28) ∧
    report (pendingState { seqRegs 4 1 0x80000000 with width := 0x10000, height := 0x10000 } []) = some (4, 4, 0x28) := by
  decide +kernel

/-- F23, F25, F27, F29: one byte too far; source, then reference, then destination; range before overlap. -/
theorem test_fault_range :
    report (pendingState { smallRegs 1 with src := 0, dst := 0xFFB } []) = some (4, 6, 0x20) ∧
    report (pendingState { smallRegs 1 with src := 0xFFFFFFFF, dst := 0xFFFFFFFF } []) = some (4, 6, 0x1C) ∧
    report (pendingState { smallRegs 5 with src := 0, ref := 0xFFB, dst := 0xFFB } []) = some (4, 6, 0x24) ∧
    report (pendingState { smallRegs 1 with width := 0x10000, height := 0x10000, src := 0, dst := 0 } []) =
      some (4, 6, 0x1C) := by decide +kernel

/-- F31, F33, F38, F39, F40: one shared byte is enough; source before reference. -/
theorem test_fault_overlap :
    report (pendingState { smallRegs 1 with src := 0x100, dst := 0x10B } []) = some (4, 7, 0x1C) ∧
    report (pendingState { smallRegs 1 with src := 0x100, dst := 0xFB } []) = some (4, 7, 0x1C) ∧
    report (pendingState { smallRegs 5 with src := 0x100, ref := 0x200, dst := 0x200 } []) = some (4, 7, 0x24) ∧
    report (pendingState { smallRegs 6 with src := 0x100, ref := 0x200, dst := 0x205 } []) = some (4, 7, 0x24) ∧
    report (pendingState { smallRegs 6 with src := 0x200, ref := 0x200, dst := 0x203 } []) = some (4, 7, 0x1C) := by
  decide +kernel

/-- F22, F24, F32, F34, F45: the ends of memory, regions that touch, and registers the command does not read. -/
theorem test_no_fault :
    report (pendingState { smallRegs 1 with src := 0xFF4 } []) = some (2, 0, 0) ∧
    report (pendingState { smallRegs 1 with dst := 0xFFA } []) = some (2, 0, 0) ∧
    report (pendingState { smallRegs 1 with src := 0x100, dst := 0x10C } []) = some (2, 0, 0) ∧
    report (pendingState { smallRegs 1 with src := 0x100, dst := 0xFA } []) = some (2, 0, 0) ∧
    report (pendingState { smallRegs 1 with len := 99, ref := 0xFFFFFFFF } []) = some (2, 0, 0) := by decide +kernel

/-! ### The register port (95_test_vectors 2.8) -/

/-- The registers after one transaction of the host, and the value read. -/
def transact (h : HostAction) (s : State) : Option (Registers × Word) :=
  match performHost h s with
  | .next t => some (t.regs, t.regData)
  | .fault _ => none
  | .refused _ => none

/-- The block with `IllegalCommand` latched, the word kept (row 13). -/
def faultedRegs : Registers := { Registers.reset with cmd := 0x99, status := 4, errcode := 5 }

def faultedState : State := { State.reset with regs := faultedRegs }

/-- Rows 2 and 3: all 32 bits are stored; a write to a read-only register changes nothing. -/
theorem test_write_operand :
    transact (.regWrite 0x28 0x12345678) .reset = some ({ Registers.reset with len := 0x12345678 }, 0) ∧
    transact (.regWrite 0x04 7) .reset = some (.reset, 0) := by decide

/-- Rows 4, 5: nothing at 0x30; `CTRL` reads zero. -/
theorem test_read_unmapped :
    transact (.regRead 0x30) { faultedState with regData := 9 } = some (faultedRegs, 0) ∧
    transact (.regRead 0x2C) { faultedState with regData := 9 } = some (faultedRegs, 0) := by decide

/-- Rows 6, 7: bit 0 of `CTRL` clear does nothing, set is a soft reset. -/
theorem test_soft_reset :
    transact (.regWrite 0x2C 0xFFFFFFFE) faultedState = some (faultedRegs, 0) ∧
    transact (.regWrite 0x2C 3) faultedState = some (.reset, 0) := by decide

/-- Rows 9 and 12: any word is stored, `BUSY` set, `DONE` cleared. -/
theorem test_issue :
    transact (.regWrite 0x00 0x99) { State.reset with regs := { smallRegs 1 with status := 2 } } =
      some ({ smallRegs 0x99 with status := 1 }, 0) := by decide

/-- Row 10: no write has any effect while `BUSY = 1`. -/
theorem test_busy :
    transact (.regWrite 0x10 4) (pendingState (smallRegs 1) []) = some (smallRegs 1, 0) ∧
    transact (.regWrite 0x00 2) (pendingState (smallRegs 1) []) = some (smallRegs 1, 0) ∧
    transact (.regWrite 0x2C 1) (pendingState (smallRegs 1) []) = some (smallRegs 1, 0) := by decide

/-- Rows 14, 15: with a fault latched a write to `CMD` is lost, an operand write is performed. -/
theorem test_faulted :
    transact (.regWrite 0x00 1) faultedState = some (faultedRegs, 0) ∧
    transact (.regWrite 0x14 8) faultedState = some ({ faultedRegs with height := 8 }, 0) := by decide

/-- Offsets that are not multiples of 4 (93 U9), and addresses past the end of memory (20_memory R61). -/
theorem test_host_stops :
    performHost (.regWrite 0x02 0) .reset = .refused (.unalignedRegisterAccess 0x02) ∧
    performHost (.memRead 0x1000) .reset = .fault (.hostAddressOutsideMemory 0x1000) :=
  ⟨rfl, rfl⟩

/-- 70_reset_and_hazards R225: what a host reads, and the byte it writes, in the destination of a pending command are
unspecified, its checks failing too (here an odd width); a byte of its source is what the host wrote. -/
theorem test_hands_off :
    let s := pendingState { smallRegs 5 with width := 3 } []
    (s.hostRead 0x47).memData = Config.freeByte 0 ∧ (s.hostWrite 0x47 9).mem.read 0x47 = Config.freeByte 0 ∧
    (s.hostRead 0x48).memData = 0xAA ∧ (s.hostWrite 0x10 9).mem = [(0x10, 9)] :=
  ⟨rfl, Memory.read_write_same _ _ _, rfl, rfl⟩

/-! ### Steps -/

/-- At reset no command is pending: the step changes nothing (10_state R36, 70_reset_and_hazards R230). -/
theorem test_idle : step .reset = .next .reset := rfl

/-- A word placed for the next step runs: with the operands of reset it is row F6 of 95_test_vectors 2.7. -/
theorem test_fetch_word : report (State.reset.withFetchWord 32 1) = some (4, 1, 0x10) := by decide

/-- 42_host_pipeline R176, R177: a blob that cannot be decompressed, and a payload that `LEN` cannot count, with the
parameter at fault; the block is not started. -/
theorem test_host_decode_reports (p : List Byte) (hp : 2 ^ 32 ≤ p.length) :
    hostDecode ⟨id, fun _ => none⟩ (fun _ => 0) 0 0x100 0x200 2 2 1 [9] = .report ⟨3, .blob⟩ ∧
    hostDecode ⟨id, some⟩ (fun _ => 0) 0 0x100 0x200 2 2 1 p = .report ⟨4, .register 0x28⟩ ∧
    decodeCall ⟨id, fun _ => none⟩ (fun _ => 0) 0 0x100 0x200 2 2 1 [9] .reset = .next (.reset, .failed ⟨3, .blob⟩) :=
  have h : Entropy.payload ⟨id, some⟩ p = .failed .lengthTooLong := if_neg (Nat.not_lt.mpr hp)
  ⟨rfl, by rw [hostDecode, h]; rfl, rfl⟩

/-- 42_host_pipeline R170: a trailing part of a frame is dropped; no frames of size zero (the model's choice, log entry 16). -/
theorem test_read_frames : readFrames 3 [1, 2, 3, 4, 5, 6, 7] = [[1, 2, 3], [4, 5, 6]] ∧ readFrames 0 [1] = [] := by decide

/-- 42_host_pipeline R175 for no frames: geometry, `NFRAMES = 0`, `DELTA_ENC`; the one for R176 loads `LEN`. -/
theorem test_host_pipeline :
    hostEncode (fun _ => 0) 0 0x100 0x200 2 2 0 = [.host (.regWrite 0x10 2), .host (.regWrite 0x14 2), .host (.regWrite 0x18 0),
      .host (.regWrite 0x1C 0x100), .host (.regWrite 0x20 0x200), .host (.regWrite 0x00 3), .engine,
      .host (.regRead 0x04)] ∧
    (hostDecodePayload (fun _ => 0) 0 0x100 0x200 2 2 1 [9]).take 5 = [.host (.memWrite 0x200 9), .host (.regWrite 0x10 2),
      .host (.regWrite 0x14 2), .host (.regWrite 0x18 1), .host (.regWrite 0x28 1)] := by decide

/-- Each `WAIT` has its own number of polls (30_encoding R99, 70_reset_and_hazards R229): none for the one `CSC_FWD`, two for
`DELTA_ENC`. -/
theorem test_polls :
    (hostEncode (fun k => 2 * k) 0 0x100 0x200 2 2 1).filter (fun e => e = .host (.regRead 0x04)) =
      List.replicate 4 (.host (.regRead 0x04)) := by decide

/-- The host reads the kind and the parameter of a latched fault (30_encoding R99). -/
theorem test_read_failure : (readFailure faultedState).andThen (fun _ f => .next (State.reset, f)) =
    .next (State.reset, ⟨5, .register 0⟩) := rfl

/-- `RUN` polls before and after the completion step (30_encoding R99). -/
theorem test_run : hostRUN 2 .acc =
    [.host (.regWrite 0x00 6), .host (.regRead 0x04), .host (.regRead 0x04), .engine, .host (.regRead 0x04)] := by decide

/-! ### Witnesses. The hypotheses of the obligation named, met by these states and operands. -/

/-- Commands on small frames that no check stops; each line of `readyRegs` is one command's registers. -/
def readyRegs : Instr → Registers
  | .cscFwd   => smallRegs 1
  | .cscInv   => smallRegs 2
  | .deltaEnc => seqRegs 3 3 0
  | .deltaDec => seqRegs 4 3 18
  | .diff     => smallRegs 5
  | .acc      => smallRegs 6

/-- The pending state of a ready command, on the bytes of `frames3`. -/
def readyState (i : Instr) : State := pendingState (readyRegs i) frames3

theorem ready_readyState (i : Instr) : (readyState i).ReadyFor i :=
  firstFault_none_iff.mp (by cases i <;> decide +kernel)

/-- The state after its completion. -/
def afterReady (i : Instr) : State := ((readyState i).storeResult i (effectOf i)).succeed

/-- A pending command whose width is odd. -/
def oddState (i : Instr) : State := pendingState { readyRegs i with width := 3 } frames3

theorem not_ready_oddState (i : Instr) : ¬ (oddState i).ReadyFor i :=
  fun h => absurd h.shaped.geometry.width_ok.2 (by cases i <;> decide)

/-- A pending state on legal bytes satisfies the invariant. -/
theorem inv_pendingState {r : Registers} {bs : List Byte} (h1 : r.status = 1) (h2 : r.errcode = 0) (h3 : r.errinfo = 0)
    (h4 : 0x10 + bs.length ≤ 0x1000) : Inv (pendingState r bs) where
  config_wf := (by decide : (Config.document 0x1000).wf = true)
  status_ok := by show r.status ∈ legalStatus; rw [h1]; decide
  no_fault := fun _ => ⟨h2, h3⟩
  fault_ok := fun h => absurd (show statusErr r.status = true from h) (by rw [h1]; decide)
  mem_wf := Memory.wf_store Memory.wf_nil _ _ _
  mem_in := Memory.addr_store (by simp) h4
  pending := fun _ => rfl
  untouched := fun _ => rfl

theorem inv_readyState (i : Instr) : Inv (readyState i) := by
  cases i <;> exact inv_pendingState rfl rfl rfl (by decide)

theorem inv_faultedState : Inv faultedState :=
  ⟨by decide, by decide, by decide, by decide, by decide, by decide, by decide, by decide⟩

theorem witness_ResetValues : State.reset.busy = false ∧ (1 : Word).getLsbD 0 = true := by decide

/-- The smallest memory and the largest, address by address. -/
theorem witness_PowerOnFree :
    0 < (Config.document 1).memSize ∧ (Config.document 1).wf = true ∧ (Config.document (2 ^ 32)).wf = true ∧
    2 ^ 32 - 1 < (Config.document (2 ^ 32)).memSize := by decide

theorem witness_SoftReset :
    (faultedState.busy = false ∧ (3 : Word).getLsbD 0 = true) ∧
    (readyState .acc).busy = true ∧ (0xFFFFFFFE : Word).getLsbD 0 = false := by decide

/-- A ready pending command with addresses just outside its destination; a pending command whose checks fail; a pending
illegal word. -/
theorem witness_HardResetOfPending :
    ((readyState .cscFwd).busy = true ∧ decode (readyState .cscFwd).regs.cmd = .command .cscFwd ∧
      (readyState .cscFwd).ReadyFor .cscFwd ∧ (footprint .cscFwd (readyState .cscFwd).regs).dest.holds 0x3F = false ∧
      (footprint .cscFwd (readyState .cscFwd).regs).dest.holds 0x46 = false) ∧
    ((oddState .cscFwd).busy = true ∧
      ∀ i, decode (oddState .cscFwd).regs.cmd = .command i → ¬ (oddState .cscFwd).ReadyFor i) ∧
    (pendingState (smallRegs 7) []).busy = true ∧
      ∀ i, decode (pendingState (smallRegs 7) []).regs.cmd = .command i → ¬ (pendingState (smallRegs 7) []).ReadyFor i := by
  refine ⟨⟨by decide, by decide, ready_readyState _, by decide, by decide⟩, ⟨by decide, fun i hi => ?_⟩,
    by decide, fun i hi => ?_⟩
  · cases Decoded.command.inj hi
    exact not_ready_oddState .cscFwd
  · cases i <;> exact absurd hi (by decide)

theorem witness_CommandIssue :
    (readyState .diff).busy = true ∧ faultedState.err = true ∧ State.reset.busy = false ∧ State.reset.err = false := by
  decide

/-- A write to a busy block; its completion step, of a command that succeeds. -/
theorem witness_BusyIgnoresWrites :
    (readyState .diff).busy = true ∧ (0x2C : Word).toNat % 4 = 0 ∧ (∃ t, step (readyState .diff) = .next t) ∧
    (∀ rest, (readyState .diff).agenda ≠ .host .hardReset :: rest) ∧ Reg.ref.isOperand = true :=
  ⟨by decide, by decide, ⟨_, rfl⟩, fun _ h => List.cons_ne_nil _ _ h.symm, rfl⟩

theorem witness_FaultKeptUntilReset :
    faultedState.err = true ∧ faultedState.busy = false ∧ Reg.ref.isOperand = true ∧ (1 : Word).getLsbD 0 = true := by decide

theorem witness_OperandWrite :
    Reg.len.isOperand = true ∧ faultedState.busy = false ∧ Reg.width ≠ Reg.len ∧
    ∃ t, engineStep (readyState .deltaDec) = .next t := ⟨by decide, by decide, by decide, _, rfl⟩

/-- The read-only offsets, and the first offset past the registers. -/
theorem witness_WritesWithoutEffect :
    (0x0C : Word).toNat % 4 = 0 ∧ (0x30 : Word).toNat % 4 = 0 ∧ ∀ n : Reg, (0x30 : Word) ≠ n.offset :=
  ⟨by decide, by decide, fun n => by cases n <;> decide⟩

theorem witness_RegisterRead :
    (0x28 : Word).toNat % 4 = 0 ∧ (0x28 : Word) = Reg.len.offset ∧ (0x2C : Word).toNat % 4 = 0 ∧
    (0xFFFFFFFC : Word).toNat % 4 = 0 ∧ ∀ n : Reg, (0xFFFFFFFC : Word) ≠ n.offset :=
  ⟨by decide, by decide, by decide, by decide, fun n => by cases n <;> decide⟩

theorem witness_UnalignedRefused : (0x01 : Word).toNat % 4 ≠ 0 ∧ (0x2F : Word).toNat % 4 ≠ 0 := by decide

/-- With a ready command under way: the byte before its destination written, the one after kept, neither in a region;
the last address that exists; with one under way whose checks fail, a byte of its source. -/
theorem witness_HostByteWrite :
    (0x3F < (readyState .diff).config.memSize ∧ 0xFFF < (readyState .diff).config.memSize ∧ 0x46 ≠ 0x3F ∧
      (∀ r ∈ (readyState .diff).unpolled, ∀ i, decode r.cmd = .command i →
        (footprint i r).dest.holds 0x46 = false ∧ (footprint i r).dest.holds 0x3F = false) ∧
      ∀ r ∈ (readyState .diff).unpolled, ∀ i, liveCommand (readyState .diff).config.memSize r = some i →
        (footprint i r).source.holds 0x3F = false ∧ ∀ g, (footprint i r).reference = some g → g.holds 0x3F = false) ∧
    (∀ r ∈ (oddState .diff).unpolled, ∀ i, decode r.cmd = .command i →
      (footprint i r).dest.holds 0x10 = false ∧ (footprint i r).source.holds 0x10 = true) ∧
    ∀ r ∈ (oddState .diff).unpolled, ∀ i, liveCommand (oddState .diff).config.memSize r = some i →
      (footprint i r).source.holds 0x10 = false ∧ ∀ g, (footprint i r).reference = some g → g.holds 0x10 = false := by
  refine ⟨⟨by decide, by decide, by decide, fun r hr i hi => ?_, fun r hr i hi => ?_⟩, fun r hr i hi => ?_,
    fun r hr i hi => ?_⟩ <;> cases List.mem_singleton.mp hr
  · cases Decoded.command.inj hi
    decide
  · cases Decoded.command.inj (liveCommand_eq_some hi).1
    refine ⟨by decide, fun g hg => ?_⟩
    cases Option.some.inj hg
    decide
  · cases Decoded.command.inj hi
    decide
  · cases Decoded.command.inj (liveCommand_eq_some hi).1
    exact absurd (liveCommand_ready hi) (not_ready_oddState .diff)

/-- The byte after a destination, and that after the destination of a command whose checks fail. -/
theorem witness_HostByteRead :
    (0x46 < (readyState .diff).config.memSize ∧
      ∀ r ∈ (readyState .diff).unpolled, ∀ i, decode r.cmd = .command i → (footprint i r).dest.holds 0x46 = false) ∧
    ∀ r ∈ (oddState .diff).unpolled, ∀ i, decode r.cmd = .command i → (footprint i r).dest.holds 0x48 = false := by
  refine ⟨⟨by decide, fun r hr i hi => (witness_HostByteWrite.1.2.2.2.1 r hr i hi).1⟩, fun r hr i hi => ?_⟩
  cases List.mem_singleton.mp hr
  cases Decoded.command.inj hi
  decide

/-- An idle block; the last address that exists; a poll of a pending block, and its completion. -/
theorem witness_TouchedIsWhatHostWrote :
    State.reset.busy = false ∧ State.reset.err = false ∧ 0xFFF < (readyState .diff).config.memSize ∧
    (readyState .diff).busy = true ∧ (∃ t, performHost (.regRead 0x04) (readyState .diff) = .next t) ∧
    (∀ a b, HostAction.regRead 0x04 ≠ .memWrite a b) ∧ HostAction.regRead 0x04 ≠ .hardReset ∧
    ∃ t, engineStep (readyState .diff) = .next t :=
  ⟨by decide, by decide, by decide, by decide, ⟨_, rfl⟩, by simp, by simp, _, rfl⟩

/-- The block after a completion nobody has polled; a poll of a pending block; a read of another register of an idle one. -/
theorem witness_PollEndsInterval :
    State.reset.busy = false ∧ State.reset.err = false ∧ (afterReady .diff).busy = false ∧
    (afterReady .diff).unpolled ≠ [] ∧ 0xFFF < (afterReady .diff).config.memSize ∧
    (∃ t, performHost (.regRead 0x04) (readyState .diff) = .next t) ∧ (readyState .diff).busy = true ∧
    (∀ v, HostAction.regRead 0x04 ≠ .regWrite 0x00 v) ∧ (∃ t, performHost (.regRead 0x08) State.reset = .next t) ∧
    HostAction.regRead 0x08 ≠ .regRead 0x04 ∧ (∀ v, HostAction.regRead 0x08 ≠ .regWrite 0x00 v) ∧
    ∃ t, engineStep (readyState .diff) = .next t :=
  ⟨by decide, by decide, rfl, List.cons_ne_nil _ _, by decide, ⟨_, rfl⟩, by decide, by simp, ⟨_, rfl⟩, by decide, by simp,
    _, rfl⟩

theorem witness_HostAddressOutside : State.reset.config.memSize ≤ 0x1000 := by decide

theorem witness_StepRunsDecoded :
    ((readyState .acc).busy = true ∧ decode (readyState .acc).regs.cmd = .command .acc ∧ (readyState .acc).agenda = []) ∧
    ((readyState .acc).withAgenda [.engine]).agenda = .engine :: [] ∧
    (State.reset.withAgenda [.host .hardReset]).agenda = .host .hardReset :: [] ∧
    State.reset.busy = false ∧ State.reset.agenda = [] ∧ (State.reset.withAgenda [.engine]).agenda = .engine :: [] := by
  decide

theorem witness_IllegalWord :
    (pendingState (smallRegs 7) []).busy = true ∧ (∀ i : Instr, (pendingState (smallRegs 7) []).regs.cmd ≠ encode i) ∧
    (pendingState (smallRegs 7) []).agenda = [] ∧
    ((pendingState (smallRegs 7) []).withAgenda [.engine]).agenda = .engine :: [] :=
  ⟨by decide, fun i => by cases i <;> decide, by decide, by decide⟩

theorem witness_PendingCompletes : (oddState .acc).busy = true ∧ (oddState .acc).agenda = [] ∧
    ((oddState .acc).withAgenda [.engine, .engine]).agenda = .engine :: [.engine] := by decide

theorem witness_PollsThenCompletion :
    ((readyState .acc).withAgenda (List.replicate 2 (.host (.regRead 0x04)))).busy = true ∧
    ((readyState .acc).withAgenda (List.replicate 2 (.host (.regRead 0x04)))).agenda =
      List.replicate 2 (.host (.regRead 0x04)) ∧ 0 < 2 := by decide

/-- Zero and odd widths; with the smallest legal width, zero and odd heights. -/
theorem witness_InvalidGeometry :
    State.reset.regs.w = 0 ∧ (oddState .acc).regs.w % 2 = 1 ∧
    (0 < (smallRegs 1).w ∧ (smallRegs 1).w % 2 = 0 ∧ ({ smallRegs 1 with height := 0 } : Registers).h = 0 ∧
      ({ smallRegs 1 with height := 0xFFFFFFFF } : Registers).h % 2 = 1) := by decide

/-- The smallest legal geometry. -/
theorem geometry_smallRegs (w : Word) : GeometryOk (smallRegs w) :=
  ⟨(by decide : 0 < 2 ∧ 2 % 2 = 0), (by decide : 0 < 2 ∧ 2 % 2 = 0)⟩

theorem witness_EmptyInput :
    (GeometryOk (pendingState (smallRegs 3) []).regs ∧ (pendingState (smallRegs 3) []).regs.n = 0) ∧
    Instr.cscFwd ≠ .deltaEnc ∧ Instr.cscFwd ≠ .deltaDec ∧ (readyState .cscFwd).regs.errcode ≠ 2 :=
  ⟨⟨geometry_smallRegs _, by decide⟩, by decide, by decide, by decide⟩

/-- One frame, one byte too few and one too many. -/
theorem witness_GeometryMismatch :
    (GeometryOk (pendingState (seqRegs 4 1 5) []).regs ∧ 1 ≤ (pendingState (seqRegs 4 1 5) []).regs.n ∧
      (seqRegs 4 1 5).len.toNat ≠ (seqRegs 4 1 5).n * (seqRegs 4 1 5).yuvBytes ∧
      (seqRegs 4 1 7).len.toNat ≠ (seqRegs 4 1 7).n * (seqRegs 4 1 7).yuvBytes) ∧
    Instr.diff ≠ .deltaDec ∧ (readyState .diff).regs.errcode ≠ 4 :=
  ⟨⟨⟨(by decide), (by decide)⟩, by decide, by decide, by decide⟩, by decide, by decide⟩

/-- Legal sizes of a frame command, wherever its frames lie. -/
theorem shaped_smallRegs (w s d f : Word) : Shaped .diff { smallRegs w with src := s, dst := d, ref := f } :=
  ⟨⟨(by decide : 0 < 2 ∧ 2 % 2 = 0), (by decide : 0 < 2 ∧ 2 % 2 = 0)⟩, by simp, by simp⟩

/-- A pending `DIFF` with its three frames at these addresses. -/
def diffState (src dst ref : Word) : State := pendingState { smallRegs 5 with src := src, dst := dst, ref := ref } []

/-- Each region in turn one byte past the end of memory, those before it ending exactly there. -/
theorem witness_BusError :
    (let s := diffState 0xFFB 0 0;
      Shaped .diff s.regs ∧ s.config.memSize < (footprint .diff s.regs).source.base + (footprint .diff s.regs).source.size) ∧
    (let s := diffState 0xFFA 0 0xFFB;
      Shaped .diff s.regs ∧
        (footprint .diff s.regs).source.base + (footprint .diff s.regs).source.size ≤ s.config.memSize ∧
        (footprint .diff s.regs).reference = some ⟨0xFFB, 6⟩ ∧ s.config.memSize < 0xFFB + 6) ∧
    (let s := diffState 0xFFA 0xFFB 0xFFA;
      Shaped .diff s.regs ∧
        (footprint .diff s.regs).source.base + (footprint .diff s.regs).source.size ≤ s.config.memSize ∧
        (footprint .diff s.regs).reference = some ⟨0xFFA, 6⟩ ∧ 0xFFA + 6 ≤ s.config.memSize ∧
        s.config.memSize < (footprint .diff s.regs).dest.base + (footprint .diff s.regs).dest.size) :=
  ⟨⟨shaped_smallRegs .., by decide⟩, ⟨shaped_smallRegs .., by decide, by decide, by decide⟩, shaped_smallRegs .., by decide,
    by decide, by decide, by decide⟩

/-- The destination on the source's last byte; below the source, on the reference's first byte; touching neither of two
that overlap. -/
theorem witness_Overlap :
    (let s := diffState 0x10 0x15 0x40;
      let r := s.regs;
      Shaped .diff r ∧ RegionsInRange .diff s.config.memSize r ∧ (footprint .diff r).dest.holds 0x15 = true ∧
        (footprint .diff r).source.holds 0x15 = true) ∧
    (let s := diffState 0x16 0x10 0x15;
      let r := s.regs;
      Shaped .diff r ∧ RegionsInRange .diff s.config.memSize r ∧ (footprint .diff r).dest.Apart (footprint .diff r).source ∧
        (footprint .diff r).reference = some ⟨0x15, 6⟩ ∧ (footprint .diff r).dest.holds 0x15 = true ∧
        (⟨0x15, 6⟩ : Region).holds 0x15 = true) ∧
    (let s := diffState 0x16 0x10 0x1B;
      let r := s.regs;
      Shaped .diff r ∧ RegionsInRange .diff s.config.memSize r ∧ (footprint .diff r).dest.Apart (footprint .diff r).source ∧
        ∀ g, (footprint .diff r).reference = some g → (footprint .diff r).dest.Apart g) :=
  ⟨⟨shaped_smallRegs .., checkRange_none.mp (by decide), by decide, by decide⟩,
    ⟨shaped_smallRegs .., checkRange_none.mp (by decide), Region.overlaps_eq_false.mp (by decide), by decide, by decide,
      by decide⟩,
    shaped_smallRegs .., checkRange_none.mp (by decide), Region.overlaps_eq_false.mp (by decide), fun g hg => by
      cases Option.some.inj hg
      exact Region.overlaps_eq_false.mp (by decide)⟩

theorem witness_FaultIsPrecise (i : Instr) : ¬ (oddState i).ReadyFor i := not_ready_oddState i

theorem witness_FaultMatrix (i : Instr) : ¬ (oddState i).ReadyFor i ∧ ∃ t, exec i (oddState i) = .next t :=
  ⟨not_ready_oddState i, exec_next i _⟩

/-- Two memories, one register file. -/
theorem witness_ChecksReadRegistersOnly :
    (readyState .acc).regs = ({ readyState .acc with mem := [] } : State).regs ∧
    (readyState .acc).config.memSize = ({ readyState .acc with mem := [] } : State).config.memSize := by decide

/-- The last pixel and the last chroma samples, of a host that has touched only another address. -/
theorem witness_CscFwdResult :
    let s := { readyState .cscFwd with touched := [0x3F] }
    s.ReadyFor .cscFwd ∧ 1 < s.regs.h ∧ 1 < s.regs.w ∧ 0 < s.regs.h / 2 ∧ 0 < s.regs.w / 2 ∧
    s.Clear [0x43, 0x19, 0x1A, 0x1B] ∧ s.Clear [0x44, 0x10, 0x11, 0x12] ∧ s.Clear [0x45, 0x10, 0x11, 0x12] :=
  ⟨ready_readyState .cscFwd, by decide, by decide, by decide, by decide, by unfold State.Clear; decide,
    by unfold State.Clear; decide, by unfold State.Clear; decide⟩

theorem witness_CscInvResult :
    let s := { readyState .cscInv with touched := [0x3F] }
    s.ReadyFor .cscInv ∧ 1 < s.regs.h ∧ 1 < s.regs.w ∧ s.Clear [0x49, 0x13, 0x14, 0x15] ∧
    s.Clear [0x4A, 0x13, 0x14, 0x15] ∧ s.Clear [0x4B, 0x13, 0x14, 0x15] :=
  ⟨ready_readyState .cscInv, by decide, by decide, by unfold State.Clear; decide, by unfold State.Clear; decide,
    by unfold State.Clear; decide⟩

theorem witness_DiffResult :
    let s := { readyState .diff with touched := [0x46] }
    s.ReadyFor .diff ∧ 5 < s.regs.yuvBytes ∧ s.Clear [0x45, 0x15, 0x25] :=
  ⟨ready_readyState .diff, by decide, by unfold State.Clear; decide⟩

theorem witness_AccResult :
    let s := { readyState .acc with touched := [0x46] }
    s.ReadyFor .acc ∧ 5 < s.regs.yuvBytes ∧ s.Clear [0x45, 0x15, 0x25] :=
  ⟨ready_readyState .acc, by decide, by unfold State.Clear; decide⟩

/-- The last byte of the first frame and of the last one. -/
theorem witness_DeltaEncResult :
    let s := { readyState .deltaEnc with touched := [0x52] }
    s.ReadyFor .deltaEnc ∧ 5 < s.regs.yuvBytes ∧ s.Clear [0x45, 0x15] ∧ 1 + 1 < s.regs.n ∧ s.Clear [0x51, 0x21, 0x1B] :=
  ⟨ready_readyState .deltaEnc, by decide, by unfold State.Clear; decide, by decide, by unfold State.Clear; decide⟩

theorem witness_DeltaDecResult :
    let s := { readyState .deltaDec with touched := [0x52] }
    s.ReadyFor .deltaDec ∧ 5 < s.regs.yuvBytes ∧ s.Clear [0x45, 0x15] ∧ 1 + 1 < s.regs.n ∧ s.Clear [0x51, 0x4B] ∧
    (∀ j, j ≤ 2 → s.regs.src.toNat + j * s.regs.yuvBytes + 5 ∉ s.touched) ∧ 2 < s.regs.n ∧
    s.regs.dst.toNat + 2 * s.regs.yuvBytes + 5 ∉ s.touched :=
  ⟨ready_readyState .deltaDec, by decide, by unfold State.Clear; decide, by decide, by unfold State.Clear; decide, by decide,
    by decide, by decide⟩

/-- Ready and not; addresses on either side of the destination. -/
theorem witness_CommandFrame (i : Instr) :
    (∃ t, exec i (readyState i) = .next t) ∧ (readyState i).ReadyFor i ∧ (∃ t, exec i (oddState i) = .next t) ∧
    ¬ (oddState i).ReadyFor i ∧ (footprint i (readyState i).regs).dest.holds 0x3F = false ∧
    (footprint i (readyState i).regs).dest.holds 0x52 = false :=
  ⟨exec_next i _, ready_readyState i, exec_next i _, not_ready_oddState i, by cases i <;> decide, by cases i <;> decide⟩

/-- The same state with one byte of memory changed. -/
def poke (s : State) (a : Nat) (b : Byte) : State := { s with mem := s.mem.write a b }

theorem read_poke {s : State} {a x : Nat} (b : Byte) (h : a ≠ x) : s.mem.read x = (poke s a b).mem.read x :=
  (Memory.read_write_other _ _ h).symm

/-- The second state differs at one address outside the regions read. -/
theorem witness_SameInputsSameOutputs (i : Instr) :
    let s := readyState i
    let s' := poke s 0x100 7
    s.config = s'.config ∧ s.regs = s'.regs ∧ s.touched = [] ∧ s'.touched = [] ∧ s.ReadyFor i ∧
    (∀ a, (footprint i s.regs).source.holds a = true → s.mem.read a = s'.mem.read a) ∧
    ∀ g a, (footprint i s.regs).reference = some g → g.holds a = true → s.mem.read a = s'.mem.read a := by
  refine ⟨rfl, rfl, rfl, rfl, ready_readyState i, fun a ha => ?_, fun g a hg ha => ?_⟩
  · refine read_poke 7 ?_
    rintro rfl
    revert ha
    cases i <;> decide
  · refine read_poke 7 ?_
    rintro rfl
    cases i <;> first | cases Option.some.inj hg; exact absurd ha (by decide) | cases hg

/-- The second state differs inside the source, at the next pixel. -/
theorem witness_ByteDependsOnItsInputs :
    let s := readyState .cscFwd
    let s' := poke s 0x13 7
    s.config = s'.config ∧ s.regs = s'.regs ∧ s.touched = [] ∧ s'.touched = [] ∧ s.ReadyFor .cscFwd ∧
    5 < (footprint .cscFwd s.regs).dest.size ∧ ∀ a ∈ inputsOf .cscFwd s.regs 5, s.mem.read a = s'.mem.read a := by
  refine ⟨rfl, rfl, rfl, rfl, ready_readyState _, by decide, fun a ha => read_poke 7 ?_⟩
  rintro rfl
  exact absurd ha (by decide)

theorem witness_ChromaIgnoresOddPixels :
    let s := readyState .cscFwd
    let s' := poke s 0x13 7
    s.config = s'.config ∧ s.regs = s'.regs ∧ s.touched = [] ∧ s'.touched = [] ∧ s.ReadyFor .cscFwd ∧
    (∀ y x c, y < s.regs.h → x < s.regs.w → y % 2 = 0 → x % 2 = 0 → c < 3 →
      s.mem.read (s.regs.src.toNat + 3 * (y * s.regs.w + x) + c) =
        s'.mem.read (s.regs.src.toNat + 3 * (y * s.regs.w + x) + c)) ∧
    s.regs.w * s.regs.h ≤ 4 ∧ 5 < s.regs.yuvBytes := by
  refine ⟨rfl, rfl, rfl, rfl, ready_readyState _, fun y x c hy hx h1 h2 hc => read_poke 7 ?_,
    by decide, by decide⟩
  change y < 2 at hy
  change x < 2 at hx
  show 0x13 ≠ 16 + 3 * (y * 2 + x) + c
  omega

/-- A `COEF_FWD` whose luma leaves `0 .. 255` on both sides, so that it wraps (40_colour_transform R113). -/
def wildFwd : CoefFwd := { CoefFwd.document with y := ⟨⟨-3, 2⟩, ⟨2, 1⟩, ⟨1, 3⟩, ⟨0, 1⟩⟩ }

/-- A `COEF_INV` with another shift, and with coefficients where the document has zero. -/
def wildInv : CoefInv := { CoefInv.document with r := ⟨⟨1, 1⟩, ⟨1, 7⟩, ⟨-5, 2⟩⟩, shift := 100 }

/-- R113 by hand: -3/2 truncates to -1, which is 255; 2 * 200 = 400 wraps to 144. R122, R123 by hand: with the shift 100,
10 + 7/7 - 0 is 11. -/
theorem test_other_coefficients :
    (fwdY wildFwd 1 0 0, fwdY wildFwd 0 200 0, invR wildInv 10 107 100) = (255, 144, 11) := by decide

theorem witness_ForwardNarrowingExact :
    wildFwd.y.wf = true ∧ wildFwd.u.wf = true ∧ wildFwd.v.wf = true := by decide

theorem witness_InverseNarrowingExact :
    wildInv.r.wf = true ∧ wildInv.g.wf = true ∧ wildInv.b.wf = true := by decide

/-- The second command, on the memory the first one leaves, its output at 0x60. -/
def second (r : Registers) (m : Memory) : State :=
  { State.reset with regs := { r with src := 0x40, dst := 0x60 }, mem := m, unpolled := [r] }

theorem witness_DeltaRoundTrip :
    let s := readyState .deltaEnc
    let t := afterReady .deltaEnc
    let s' := second (seqRegs 4 3 18) t.mem
    s.ReadyFor .deltaEnc ∧ s.touched = [] ∧ exec .deltaEnc s = .next t ∧ s'.mem = t.mem ∧ s'.touched = [] ∧
    s'.ReadyFor .deltaDec ∧ s'.regs.width = s.regs.width ∧ s'.regs.height = s.regs.height ∧
    s'.regs.nframes = s.regs.nframes ∧ s'.regs.src = s.regs.dst ∧ 17 < s.regs.n * s.regs.yuvBytes :=
  ⟨ready_readyState _, rfl, exec_ready (ready_readyState _), rfl, rfl, firstFault_none_iff.mp (by decide +kernel), rfl, rfl,
    rfl, rfl, by decide⟩

theorem witness_DeltaRoundTripConverse :
    let s := readyState .deltaDec
    let t := afterReady .deltaDec
    let s' := second (seqRegs 3 3 0) t.mem
    s.ReadyFor .deltaDec ∧ s.touched = [] ∧ exec .deltaDec s = .next t ∧ s'.mem = t.mem ∧ s'.touched = [] ∧
    s'.ReadyFor .deltaEnc ∧ s'.regs.width = s.regs.width ∧ s'.regs.height = s.regs.height ∧
    s'.regs.nframes = s.regs.nframes ∧ s'.regs.src = s.regs.dst ∧ 17 < s.regs.n * s.regs.yuvBytes :=
  ⟨ready_readyState _, rfl, exec_ready (ready_readyState _), rfl, rfl, firstFault_none_iff.mp (by decide +kernel), rfl, rfl,
    rfl, rfl, by decide⟩

theorem witness_ColourRoundTrip :
    let s := readyState .cscFwd
    let t := afterReady .cscFwd
    let s' := second (smallRegs 2) t.mem
    s.ReadyFor .cscFwd ∧ s.touched = [] ∧ exec .cscFwd s = .next t ∧ s'.mem = t.mem ∧ s'.touched = [] ∧
    s'.ReadyFor .cscInv ∧ s'.regs.width = s.regs.width ∧ s'.regs.height = s.regs.height ∧
    s'.regs.src = s.regs.dst ∧ 1 < s.regs.h ∧ 1 < s.regs.w :=
  ⟨ready_readyState _, rfl, exec_ready (ready_readyState _), rfl, rfl, firstFault_none_iff.mp (by decide +kernel), rfl, rfl,
    rfl, by decide, by decide⟩

/-- The last step of a chain of three frames. -/
theorem witness_ChainStepsReady :
    0x1000 ≤ 2 ^ 32 ∧ 1 + 1 < (seqRegs 3 3 0).n ∧ 1 + 1 < (seqRegs 4 3 18).n ∧ Ready .deltaEnc 0x1000 (seqRegs 3 3 0) ∧
    Ready .deltaDec 0x1000 (seqRegs 4 3 18) :=
  ⟨by decide, by decide, by decide, ready_readyState .deltaEnc, ready_readyState .deltaDec⟩

theorem step_readyState (i : Instr) : step (readyState i) = exec i (readyState i) := by cases i <;> rfl

/-- Every command pending and about to complete; a latched fault. -/
theorem witness_StepKeepsInv (i : Instr) :
    Inv (readyState i) ∧ (∃ t, step (readyState i) = .next t) ∧ Inv faultedState ∧ step faultedState = .next faultedState :=
  ⟨inv_readyState i, step_readyState i ▸ exec_next i _, inv_faultedState, rfl⟩

theorem witness_ConfigNeverChanges (i : Instr) : ∃ t, step (readyState i) = .next t := (witness_StepKeepsInv i).2.1

theorem witness_OnlyHostWritesOperands (i : Instr) :
    (∃ t, step (readyState i) = .next t) ∧ (∀ off v rest, (readyState i).agenda ≠ .host (.regWrite off v) :: rest) ∧
    (∀ rest, (readyState i).agenda ≠ .host .hardReset :: rest) ∧ Reg.width.isOperand = true :=
  ⟨(witness_StepKeepsInv i).2.1, fun _ _ _ h => List.cons_ne_nil _ _ h.symm,
    fun _ h => List.cons_ne_nil _ _ h.symm, rfl⟩

/-- A host that writes an operand register of a faulted block. -/
theorem witness_OnlyResetClearsFault :
    let s := faultedState.withAgenda [.host (.regWrite 0x10 4)]
    Inv s ∧ s.err = true ∧ (∃ t, step s = .next t) ∧
    (∀ v rest, s.agenda = .host (.regWrite 0x2C v) :: rest → v.getLsbD 0 = false) ∧
    ∀ rest, s.agenda ≠ .host .hardReset :: rest := by
  have h := inv_faultedState
  refine ⟨⟨h.1, h.2, h.3, h.4, h.5, h.6, h.7, h.8⟩, rfl, ⟨_, rfl⟩, fun v rest hv => ?_, fun rest hr => ?_⟩
  · simp [State.withAgenda] at hv
  · simp [State.withAgenda] at hr

end Sys2Proof.Tests
end

/-! SUPPORT. The register port by transaction (10_state R21, R22, R37 to R39): what a write or a read at each kind of offset
answers, said once. -/

namespace Sys2Proof.Machine

/-- The host may access any offset that is a multiple of 4 (10_state R21). -/
theorem aligned_iff {off : Word} : aligned off = true ↔ off.toNat % 4 = 0 := by simp [aligned]

theorem performHost_regWrite {off : Word} (h : aligned off = true) (s : State) (v : Word) :
    performHost (.regWrite off v) s = .next (s.regWrite off v) := if_pos h

theorem performHost_regRead {off : Word} (h : aligned off = true) (s : State) :
    performHost (.regRead off) s = .next (s.regRead off) := if_pos h

/-- While `BUSY = 1` no register write has an effect (10_state R38). -/
theorem regWrite_of_busy {s : State} (hb : s.busy = true) (off v : Word) : s.regWrite off v = s := by
  rcases regWrite_cases s off v with h | ⟨hi, -⟩ | ⟨hi, -⟩ | ⟨hi, -⟩
  · exact h
  all_goals rw [hb] at hi; cases hi

/-- While `BUSY = 0` an operand register is written whole (10_state R24). -/
theorem regWrite_operand {s : State} (hb : s.busy = false) {n : Reg} (hn : n.isOperand = true) (v : Word) :
    s.regWrite n.offset v = { s with regs := s.regs.setOperand n v } := by
  rw [State.regWrite, ofOffset_offset]
  cases n with
  | width | height | nframes | src | dst | ref | len => simp [hb]
  | cmd | status | errcode | errinfo | ctrl => cases hn

theorem regWrite_cmd {s : State} (hb : s.busy = false) (v : Word) : s.regWrite Reg.cmd.offset v = s.issue v := by
  simp [State.regWrite, hb]

theorem regWrite_ctrl {s : State} (hb : s.busy = false) (v : Word) : s.regWrite Reg.ctrl.offset v = s.writeCtrl v := by
  simp [State.regWrite, hb]

/-- A latched fault loses the command (10_state R39). -/
theorem issue_of_err {s : State} (he : s.err = true) (v : Word) : s.issue v = s := if_pos he

/-- With no fault latched the command is accepted, whatever the word (10_state R37). -/
theorem issue_of_not_err {s : State} (he : s.err = false) (v : Word) :
    s.issue v = { s with
      regs := { s.regs with cmd := v, status := statusIssued s.regs.status }
      unpolled := { s.regs with cmd := v, status := statusIssued s.regs.status } :: s.unpolled
      touched := [] } := by
  simp [State.issue, he]

theorem writeCtrl_of_bit {v : Word} (hv : v.getLsbD 0 = true) (s : State) : s.writeCtrl v = s.softReset := if_pos hv

/-- A soft reset clears a latched fault (60_exceptions R202). -/
theorem softReset_err (s : State) : s.softReset.err = false := by simp [State.err, statusErr]

/-- The value received at a register's offset, `CTRL` among them (10_state R22). -/
@[simp] theorem regValue_offset (s : State) (n : Reg) : s.regValue n.offset = s.regs.get n := by
  simp [State.regValue]

theorem regValue_of_none {off : Word} (h : ∀ n : Reg, off ≠ n.offset) (s : State) : s.regValue off = 0 := by
  simp [State.regValue, ofOffset_none.mpr h]

/-- The operand registers are none of the others. -/
theorem ne_of_isOperand {m n : Reg} (hm : m.isOperand = false) (hn : n.isOperand = true) : m ≠ n := by
  rintro rfl
  simp [hm] at hn

/-! SUPPORT. What a step keeps of the register file (10_state R24, R38). -/

/-- `CMD` and the seven operand registers of `t` are those of `s`. -/
def OperandsKept (s t : State) : Prop :=
  t.regs.cmd = s.regs.cmd ∧ ∀ n : Reg, n.isOperand = true → t.regs.get n = s.regs.get n

theorem operandsKept_of_regs {s t : State} (h : t.regs = s.regs) : OperandsKept s t := by
  simp [OperandsKept, h]

/-- A completion step leaves alone all that `Framed` lists. -/
theorem exec_framed {i : Instr} {s t : State} (h : exec i s = .next t) : Framed s t := by
  rw [exec_eq_complete] at h
  rcases complete_cases h with ⟨e, -, rfl⟩ | ⟨-, rfl⟩
  · exact (raise_faulted s e).framed
  · exact (storeResult_succeeded i s).framed

/-- So does any turn of the engine, of an illegal word and of an idle block too. -/
theorem engineStep_framed {s t : State} (h : engineStep s = .next t) : Framed s t := by
  rcases engineStep_cases s with ⟨-, he⟩ | ⟨-, i, -, he⟩ | ⟨-, r, -, he⟩ <;> rw [he] at h
  · cases h
    exact ⟨fun _ _ _ _ => rfl, fun _ _ => rfl, rfl, rfl, ⟨rfl, rfl⟩, rfl⟩
  · exact exec_framed h
  · cases h
    exact (raise_faulted s illegalReport).framed

theorem Framed.operandsKept {s t : State} (h : Framed s t) : OperandsKept s t :=
  ⟨h.regs_kept .cmd nofun nofun nofun, fun n hn => h.regs_kept n (ne_of_isOperand rfl hn).symm
    (ne_of_isOperand rfl hn).symm (ne_of_isOperand rfl hn).symm⟩

/-- A host access to the frame memory or a register read leaves the register file alone. -/
theorem performHost_regs {h : HostAction} {s t : State} (ht : performHost h s = .next t)
    (hw : ∀ off v, h ≠ .regWrite off v) (hr : h ≠ .hardReset) : t.regs = s.regs := by
  cases h with
  | regWrite off v => exact absurd rfl (hw off v)
  | hardReset => exact absurd rfl hr
  | regRead off =>
    simp only [performHost] at ht
    split at ht <;> cases ht
    rfl
  | memWrite a b =>
    simp only [performHost] at ht
    split at ht <;> cases ht
    obtain ⟨m, n, h, -⟩ := hostWrite_cases s a b
    rw [h]
  | memRead a =>
    simp only [performHost] at ht
    split at ht <;> cases ht
    unfold State.hostRead
    split <;> rfl

/-- While `BUSY = 1` the host changes no register but by a hard reset (10_state R38). -/
theorem performHost_regs_of_busy {h : HostAction} {s t : State} (hb : s.busy = true) (ht : performHost h s = .next t)
    (hr : h ≠ .hardReset) : t.regs = s.regs := by
  by_cases hw : ∃ off v, h = .regWrite off v
  · obtain ⟨off, v, rfl⟩ := hw
    simp only [performHost, regWrite_of_busy hb] at ht
    split at ht <;> cases ht
    rfl
  · exact performHost_regs ht (fun off v e => hw ⟨off, v, e⟩) hr

theorem withAgenda_self {s : State} {l : List Event} (h : s.agenda = l) : s.withAgenda l = s := by
  subst h
  rfl

/-- A step is a turn of the engine, or the host transaction that is next. -/
theorem step_cases (s : State) :
    ((s.agenda = [] ∨ ∃ rest, s.agenda = .engine :: rest) ∧ step s = engineStep (s.withAgenda s.agenda.tail)) ∨
      ∃ h rest, s.agenda = .host h :: rest ∧ step s = performHost h (s.withAgenda rest) := by
  unfold step
  cases ha : s.agenda with
  | nil => exact .inl ⟨.inl rfl, by rw [List.tail_nil, withAgenda_self ha]⟩
  | cons e rest =>
    cases e with
    | engine => exact .inl ⟨.inr ⟨rest, rfl⟩, rfl⟩
    | host h => exact .inr ⟨h, rest, rfl, rfl⟩

/-! SUPPORT. What a destination byte depends on (20_memory R78). -/

theorem runningSum_congr {rd₁ rd₂ : Nat → Byte} {a f : Nat} :
    ∀ {i : Nat}, (∀ j ≤ i, rd₁ (a + j * f) = rd₂ (a + j * f)) → runningSum rd₁ a f i = runningSum rd₂ a f i
  | 0, h => by simpa [runningSum] using congrArg (add8 · 0) (h 0 le_rfl)
  | i + 1, h => by
    rw [runningSum, runningSum, h (i + 1) le_rfl, runningSum_congr fun j hj => h j (Nat.le_succ_of_le hj)]

/-- A command's byte is a function of the bytes at `inputsOf`, the configuration and the registers. -/
theorem effectOf_congr {i : Instr} {r : Registers} {rd₁ rd₂ : Nat → Byte} {k : Nat} (c : Config)
    (h : ∀ a ∈ inputsOf i r k, rd₁ a = rd₂ a) : effectOf i c r rd₁ k = effectOf i c r rd₂ k := by
  cases i with
  | cscFwd =>
    simp only [inputsOf, List.forall_mem_cons] at h
    obtain ⟨hr, hg, hb, -⟩ := h
    simp only [effectOf, cscFwdByte, hr, hg, hb]
  | cscInv =>
    simp only [inputsOf, List.forall_mem_cons] at h
    obtain ⟨hy, hu, hv, -⟩ := h
    simp only [effectOf, cscInvByte, hy, hu, hv]
  | deltaEnc =>
    simp only [effectOf, deltaEncByte]
    split
    next hk => exact h _ (by simp [inputsOf, hk])
    next hk => rw [h (r.src.toNat + k) (by simp [inputsOf, hk]), h (r.src.toNat + k - r.yuvBytes) (by simp [inputsOf, hk])]
  | deltaDec =>
    refine runningSum_congr fun j hj => h _ ?_
    simp only [inputsOf, frameAddr, List.mem_map, List.mem_range]
    exact ⟨j, by omega, by omega⟩
  | diff =>
    simp only [inputsOf, List.forall_mem_cons] at h
    obtain ⟨hs, hr, -⟩ := h
    simp only [effectOf, diffByte, hs, hr]
  | acc =>
    simp only [inputsOf, List.forall_mem_cons] at h
    obtain ⟨hs, hr, -⟩ := h
    simp only [effectOf, accByte, hs, hr]

/-- Two ready issues with equal registers store the same byte where they read the same inputs and no host has interfered. -/
theorem read_exec_congr {i : Instr} {s₁ s₂ : State} {k : Nat} (hc : s₁.config = s₂.config)
    (hr : s₁.regs = s₂.regs) (h₁ : s₁.touched = []) (h₂ : s₂.touched = []) (hk : k < (footprint i s₁.regs).dest.size)
    (h : ∀ a ∈ inputsOf i s₁.regs k, s₁.mem.read a = s₂.mem.read a) :
    (s₁.storeResult i (effectOf i)).succeed.mem.read ((footprint i s₁.regs).dest.base + k) =
      (s₂.storeResult i (effectOf i)).succeed.mem.read ((footprint i s₁.regs).dest.base + k) := by
  rw [read_exec_at hk (disturbed_nil h₁ i k), effectOf_congr s₁.config h, hc, hr]
  rw [hr] at hk
  exact (read_exec_at hk (disturbed_nil h₂ i k)).symm

/-! CERTIFICATES. The statements of 10_state. -/

/-- Settles O8: the write reaches `State.issue`, which looks at `ERR` alone. -/
theorem commandIssue : Obligations.CommandIssue := by
  intro s v
  have hp : performHost (.regWrite 0x00 v) s = .next (s.regWrite Reg.cmd.offset v) :=
    performHost_regWrite (aligned_offset .cmd) s v
  rw [hp]
  refine ⟨fun h => ?_, fun hb he => ?_⟩
  · cases hb : s.busy with
    | true => rw [regWrite_of_busy hb]
    | false =>
      have he : s.err = true := h.resolve_left (by simp [hb])
      rw [regWrite_cmd hb, issue_of_err he]
  · rw [regWrite_cmd hb, issue_of_not_err he]
    exact ⟨_, rfl, rfl, busy_issued _, done_issued _, (err_issued _).trans he,
      fun n h₁ h₂ => by cases n <;> first | rfl | contradiction,
      fun j hj => (reserved_kept _ j hj).1, rfl, rfl, rfl⟩

/-- Settles O9: a pending block's register file changes by the engine's turn or a hard reset only, and the turn is framed. -/
theorem busyIgnoresWrites : Obligations.BusyIgnoresWrites := by
  refine ⟨fun s off v hb ha => ?_, fun s t hb ht hr => ?_⟩
  · rw [performHost_regWrite (aligned_iff.mpr ha), regWrite_of_busy hb]
  · show OperandsKept s t
    rcases step_cases s with ⟨-, hs⟩ | ⟨h, rest, ha, hs⟩ <;> rw [hs] at ht
    · exact (engineStep_framed ht).operandsKept
    · refine operandsKept_of_regs (performHost_regs_of_busy (s := s.withAgenda rest) hb ht ?_)
      rintro rfl
      exact hr rest ha

/-- Settles O11: an operand write is `setOperand`, which aliases nothing; the engine's turn is framed. -/
theorem operandWrite : Obligations.OperandWrite := by
  refine fun n hn => ⟨fun s v hb => ?_, fun s => ?_, fun s t ht => (engineStep_framed ht).operandsKept.2 n hn⟩
  · rw [performHost_regWrite (aligned_offset n), regWrite_operand hb hn]
    exact ⟨_, rfl, get_setOperand_same hn _ _, fun m hm => get_setOperand_other hm _ _, rfl⟩
  · exact ⟨_, performHost_regRead (aligned_offset n) s, regValue_offset s n⟩

/-- Settles O10: the write to `CMD` is lost in `State.issue`, operand writes are those of an idle block (O11), and
a soft reset zeroes the registers. -/
theorem faultKeptUntilReset : Obligations.FaultKeptUntilReset := by
  intro s v he hb
  refine ⟨(commandIssue s v).1 (.inr he), fun n hn => ?_, fun hv => ?_⟩
  · obtain ⟨t, ht, hv, hkept, -⟩ := (operandWrite n hn).1 s v hb
    exact ⟨t, ht, hv, hkept .cmd (ne_of_isOperand rfl hn), hkept .status (ne_of_isOperand rfl hn),
      hkept .errcode (ne_of_isOperand rfl hn), hkept .errinfo (ne_of_isOperand rfl hn)⟩
  · have hp : performHost (.regWrite 0x2C v) s = .next (s.regWrite Reg.ctrl.offset v) :=
      performHost_regWrite (aligned_offset .ctrl) s v
    rw [hp, regWrite_ctrl hb, writeCtrl_of_bit hv]
    exact ⟨_, rfl, softReset_err s, rfl, rfl⟩

/-- Settles O13: the transaction is `State.regRead`, which receives `State.regValue` and leaves the block alone. -/
theorem registerRead : Obligations.RegisterRead := by
  intro s off ha
  refine ⟨_, performHost_regRead (aligned_iff.mpr ha) s, ?_, ?_, fun h => regValue_of_none h s, rfl, rfl, rfl, rfl, rfl⟩
  · rintro n rfl
    exact regValue_offset s n
  · rintro rfl
    exact regValue_offset s .ctrl

/-- Settles O39: every destination byte is a function of its inputs, and those lie in the regions the command reads. -/
theorem sameInputsSameOutputs : Obligations.SameInputsSameOutputs := by
  intro i s₁ s₂ hc hr h₁ h₂ hready hsrc href
  have hready₂ : s₂.ReadyFor i := by rw [State.ReadyFor, ← hc, ← hr]; exact hready
  refine ⟨_, _, exec_ready hready, exec_ready hready₂, fun a ha => ?_⟩
  obtain ⟨k, rfl⟩ := Nat.exists_eq_add_of_le (Region.holds_iff.mp ha).1
  have hk : k < (footprint i s₁.regs).dest.size := Nat.lt_of_add_lt_add_left (Region.holds_iff.mp ha).2
  refine read_exec_congr hc hr h₁ h₂ hk fun b hb => ?_
  rcases inputsOf_in_regions hready hk b hb with hs | ⟨g, hg, hgb⟩
  · exact hsrc b hs
  · exact href g b hg hgb

end Sys2Proof.Machine

namespace Sys2Proof

/-! SUPPORT. The fields of a command word (30_encoding R90) and the commands the decoder reads from them (R92, R96). -/

theorem rsvField_append_opField (w : Word) : rsvField w ++ opField w = w :=
  (BitVec.extractLsb'_append_extractLsb'_eq_extractLsb' rfl).trans BitVec.extractLsb'_eq_self

/-- Every command's word is of format `C` (30_encoding R90). -/
theorem format_statement (i : Instr) : Laws.Format.Statement i :=
  match i with
  | .cscFwd   => Laws.Format.cscFwd
  | .cscInv   => Laws.Format.cscInv
  | .deltaEnc => Laws.Format.deltaEnc
  | .deltaDec => Laws.Format.deltaDec
  | .diff     => Laws.Format.diff
  | .acc      => Laws.Format.acc

@[simp] theorem opField_encode (i : Instr) : opField (encode i) = i.opcode := (format_statement i).2.1

@[simp] theorem rsvField_encode (i : Instr) : rsvField (encode i) = 0 := (format_statement i).2.2

/-- A word is a command's exactly when its two fields are the command's: together the fields are the whole word. -/
theorem eq_encode_iff {w : Word} {i : Instr} : w = encode i ↔ rsvField w = 0 ∧ opField w = i.opcode := by
  constructor
  · rintro rfl
    exact ⟨rsvField_encode i, opField_encode i⟩
  · rintro ⟨hr, ho⟩
    calc w = rsvField w ++ opField w := (rsvField_append_opField w).symm
      _ = encode i := by rw [hr, ho]; rfl

@[simp] theorem decodeOp_opcode (i : Instr) : decodeOp i.opcode = .command i := by cases i <;> rfl

theorem decodeOp_eq_command_iff {op : BitVec 8} {i : Instr} : decodeOp op = .command i ↔ op = i.opcode := by
  constructor
  · intro h
    unfold decodeOp at h
    split at h <;> cases h <;> exact BitVec.eq_of_toNat_eq ‹_›
  · rintro rfl
    exact decodeOp_opcode i

theorem decode_eq_command_iff {w : Word} {i : Instr} : decode w = .command i ↔ w = encode i := by
  rw [eq_encode_iff, decode]
  split
  next hr => simp only [decodeOp_eq_command_iff, hr, true_and]
  next hr => simp only [reduceCtorEq, hr, false_and]

theorem Decoded.exists_illegal_iff {d : Decoded} : (∃ r, d = .illegal r) ↔ ∀ i, d ≠ .command i := by
  cases d <;> simp

/-! CERTIFICATES. The statements of 30_encoding. -/

/-- Settles O2: the decoder's two tests fix both fields, hence the whole word; a word that decodes to no command is illegal. -/
theorem decodeEncodeAgree : Obligations.DecodeEncodeAgree := by
  refine ⟨by decide, fun w i => decode_eq_command_iff, fun w => ?_⟩
  simp only [Decoded.exists_illegal_iff, ne_eq, decode_eq_command_iff]

end Sys2Proof

namespace Sys2Proof

/-! SUPPORT. The model's exact rationals (00_scope R9) are Mathlib's: the value of a `Ratio`, and what each operation does
to it. -/

/-- The rational number that a `Ratio` spells. -/
def Ratio.val (q : Ratio) : ℚ := q.num / q.den

/-- Rounding toward zero, `trunc` of 00_scope R9, over the rationals. -/
def towardZero (q : ℚ) : Int := if 0 ≤ q then ⌊q⌋ else ⌈q⌉

theorem towardZero_of_nonneg {q : ℚ} (h : 0 ≤ q) : towardZero q = ⌊q⌋ := if_pos h

theorem towardZero_of_nonpos {q : ℚ} (h : q ≤ 0) : towardZero q = ⌈q⌉ := by
  rcases h.lt_or_eq with hneg | rfl
  · exact if_neg hneg.not_ge
  · simp [towardZero]

/-- Clamping to integer bounds around zero commutes with truncation: below zero both give 0, from zero on truncation is the
floor, which is monotone. -/
theorem floor_clamp_eq_clamp_towardZero (q : ℚ) : ⌊max 0 (min 255 q)⌋ = max 0 (min 255 (towardZero q)) := by
  rcases le_total 0 q with h | h
  · rw [towardZero_of_nonneg h, Int.floor_mono.map_max, Int.floor_mono.map_min, Int.floor_zero, Int.floor_ofNat]
  · have hceil : ⌈q⌉ ≤ 0 := Int.ceil_le.mpr (by exact_mod_cast h)
    rw [towardZero_of_nonpos h, max_eq_left (min_le_of_right_le h), max_eq_left (min_le_of_right_le hceil),
      Int.floor_zero]

namespace Ratio

@[simp] theorem den_ofInt (z : Int) : (ofInt z).den = 1 := rfl

@[simp] theorem den_scale (p : Ratio) (z : Int) : (p.scale z).den = p.den := rfl

@[simp] theorem den_add (p q : Ratio) : (p.add q).den = p.den * q.den := rfl

@[simp] theorem val_ofInt (z : Int) : (ofInt z).val = z := by simp [val, ofInt]

@[simp] theorem val_scale (p : Ratio) (z : Int) : (p.scale z).val = p.val * z := by
  simp [val, scale, div_mul_eq_mul_div]

theorem val_add {p q : Ratio} (hp : 0 < p.den) (hq : 0 < q.den) : (p.add q).val = p.val + q.val := by
  have hp' : (p.den : ℚ) ≠ 0 := Nat.cast_ne_zero.mpr hp.ne'
  have hq' : (q.den : ℚ) ≠ 0 := Nat.cast_ne_zero.mpr hq.ne'
  simp [val, add, div_add_div _ _ hp' hq', mul_comm]

theorem le_iff {p q : Ratio} (hp : 0 < p.den) (hq : 0 < q.den) : p.le q = true ↔ p.val ≤ q.val := by
  rw [val, val, div_le_div_iff₀ (Nat.cast_pos.mpr hp) (Nat.cast_pos.mpr hq), le, decide_eq_true_iff]
  norm_cast

theorem val_ite_le {p q : Ratio} (hp : 0 < p.den) (hq : 0 < q.den) :
    (if p.le q then p else q).val = min p.val q.val := by
  simp only [apply_ite val, le_iff hp hq, min_def]

theorem val_ite_ge {p q : Ratio} (hp : 0 < p.den) (hq : 0 < q.den) :
    (if p.le q then q else p).val = max p.val q.val := by
  simp only [apply_ite val, le_iff hp hq, max_def]

theorem val_clamp {q lo hi : Ratio} (hq : 0 < q.den) (hlo : 0 < lo.den) (hhi : 0 < hi.den) :
    (q.clamp lo hi).val = max lo.val (min hi.val q.val) := by
  have hm : 0 < (if hi.le q then hi else q).den := by split <;> assumption
  rw [clamp, val_ite_ge hm hlo, val_ite_le hhi hq, max_comm]

/-- The model's truncating division is rounding toward zero. -/
theorem trunc_eq_towardZero (q : Ratio) : q.trunc = towardZero q.val := by
  rcases le_total 0 q.num with h | h
  · have hval : 0 ≤ q.val := div_nonneg (Int.cast_nonneg h) (Nat.cast_nonneg _)
    rw [towardZero_of_nonneg hval, val, Rat.floor_intCast_div_natCast, trunc, Int.tdiv_eq_ediv_of_nonneg h]
  · have hval : q.val ≤ 0 := div_nonpos_of_nonpos_of_nonneg (Int.cast_nonpos.mpr h) (Nat.cast_nonneg _)
    rw [towardZero_of_nonpos hval, val, Rat.ceil_intCast_div_natCast, trunc,
      ← Int.tdiv_eq_ediv_of_nonneg (neg_nonneg.mpr h), Int.neg_tdiv, neg_neg]

end Ratio

theorem FwdRow.wf_iff {c : FwdRow} :
    c.wf = true ↔ 0 < c.r.den ∧ 0 < c.g.den ∧ 0 < c.b.den ∧ 0 < c.offset.den := by
  simp [FwdRow.wf, and_assoc]

theorem InvRow.wf_iff {c : InvRow} : c.wf = true ↔ 0 < c.y.den ∧ 0 < c.u.den ∧ 0 < c.v.den := by
  simp [InvRow.wf, and_assoc]

end Sys2Proof

namespace Sys2Proof.Machine

/-! SUPPORT. The two narrowings of 40_colour_transform and the real values they narrow. -/

theorem toNat_mod8 (z : Int) : ((mod8 z).toNat : Int) = z % 256 := by
  rw [mod8, BitVec.toNat_ofInt]
  omega

/-- Forward narrowing (40_colour_transform R113). -/
theorem toNat_wrap8 (q : Ratio) : ((wrap8 q).toNat : Int) = towardZero q.val % 256 := by
  rw [wrap8, toNat_mod8, Ratio.trunc_eq_towardZero]

/-- Inverse narrowing (40_colour_transform R123): a clamped value is in `0 .. 255`, so `mod8` keeps its integer part. -/
theorem toNat_clamp8 {q : Ratio} (hq : 0 < q.den) : ((clamp8 q).toNat : Int) = ⌊max 0 (min 255 q.val)⌋ := by
  have hval : (q.clamp (.ofInt 0) (.ofInt 255)).val = max 0 (min 255 q.val) := by
    rw [Ratio.val_clamp hq] <;> simp
  have hlow : 0 ≤ max 0 (min 255 q.val) := le_max_left _ _
  have hhigh : max 0 (min 255 q.val) < 256 :=
    max_lt (by norm_num) ((min_le_left _ _).trans_lt (by norm_num))
  rw [clamp8, toNat_mod8, Ratio.trunc_eq_towardZero, hval, towardZero_of_nonneg hlow]
  exact Int.emod_eq_of_lt (Int.floor_nonneg.mpr hlow) (Int.floor_lt.mpr (by exact_mod_cast hhigh))

theorem val_fwdReal {c : FwdRow} (h : c.wf = true) (r g b : Byte) :
    (fwdReal c r g b).val = c.r.val * r.toNat + c.g.val * g.toNat + c.b.val * b.toNat + c.offset.val := by
  obtain ⟨hr, hg, hb, ho⟩ := FwdRow.wf_iff.mp h
  rw [fwdReal, Ratio.val_add, Ratio.val_add, Ratio.val_add] <;> simp [*]

theorem den_invReal_pos {c : InvRow} (h : c.wf = true) (shift : Int) (y u v : Byte) :
    0 < (invReal c shift y u v).den := by
  obtain ⟨hy, hu, hv⟩ := InvRow.wf_iff.mp h
  simp [invReal, *]

theorem val_invReal {c : InvRow} (h : c.wf = true) (shift : Int) (y u v : Byte) :
    (invReal c shift y u v).val =
      c.y.val * y.toNat + c.u.val * ((u.toNat : ℚ) - shift) + c.v.val * ((v.toNat : ℚ) - shift) := by
  obtain ⟨hy, hu, hv⟩ := InvRow.wf_iff.mp h
  rw [invReal, Ratio.val_add, Ratio.val_add] <;> simp [*]

/-- One forward sample (40_colour_transform R112, R113), for any row. -/
theorem toNat_wrap8_fwdReal {c : FwdRow} (h : c.wf = true) (r g b : Byte) :
    ((wrap8 (fwdReal c r g b)).toNat : Int) =
      towardZero (c.r.val * r.toNat + c.g.val * g.toNat + c.b.val * b.toNat + c.offset.val) % 256 := by
  rw [toNat_wrap8, val_fwdReal h]

/-- Both orders of clamping and truncation give `clamp8`. -/
theorem toNat_clamp8_both {q : Ratio} (hq : 0 < q.den) :
    ((clamp8 q).toNat : Int) = ⌊max 0 (min 255 q.val)⌋ ∧
      ((clamp8 q).toNat : Int) = max 0 (min 255 (towardZero q.val)) :=
  ⟨toNat_clamp8 hq, (toNat_clamp8 hq).trans (floor_clamp_eq_clamp_towardZero _)⟩

/-! CERTIFICATES. The narrowings of 40_colour_transform. -/

/-- Settles O44: the model's sum of fractions has the row's real value, and its truncating division rounds toward zero. -/
theorem forwardNarrowingExact : Obligations.ForwardNarrowingExact := by
  intro c r g b hy hu hv
  exact ⟨toNat_wrap8_fwdReal hy r g b, toNat_wrap8_fwdReal hu r g b, toNat_wrap8_fwdReal hv r g b⟩

/-- Settles O45: the clamp of a fraction is the clamp of its value, and truncation commutes with it. -/
theorem inverseNarrowingExact : Obligations.InverseNarrowingExact := by
  intro c y u v hr hg hb real narrowed
  have row : ∀ k : InvRow, k.wf = true → narrowed (clamp8 (invReal k c.shift y u v)) (real k) := by
    intro k hk
    have hreal : (invReal k c.shift y u v).val = real k := val_invReal hk c.shift y u v
    exact hreal ▸ toNat_clamp8_both (den_invReal_pos hk c.shift y u v)
  exact ⟨row c.r hr, row c.g hg, row c.b hb⟩

end Sys2Proof.Machine

namespace Sys2Proof.Machine

/-! SUPPORT. The samples of the delta coder (41_delta_coder R141, R142) as arithmetic of bytes. -/

@[simp] theorem mod8_toNat (a : Byte) : mod8 a.toNat = a := by simp [mod8]

theorem mod8_add (x y : Int) : mod8 (x + y) = mod8 x + mod8 y := BitVec.ofInt_add x y

theorem add8_eq_add (a b : Byte) : add8 a b = a + b := by rw [add8, mod8_add, mod8_toNat, mod8_toNat]

theorem sub8_eq_sub (a b : Byte) : sub8 a b = a - b := by
  have hsum : sub8 a b + b = a := by
    calc sub8 a b + b = mod8 (a.toNat - b.toNat) + mod8 b.toNat := by rw [sub8, mod8_toNat]
      _ = a := by rw [← mod8_add, Int.sub_add_cancel, mod8_toNat]
  exact eq_sub_of_add_eq hsum

theorem toNat_sub8 (a b : Byte) : ((sub8 a b).toNat : Int) = ((a.toNat : Int) - b.toNat) % 256 := toNat_mod8 _

theorem toNat_add8 (a b : Byte) : (add8 a b).toNat = (a.toNat + b.toNat) % 256 := by
  rw [add8_eq_add, BitVec.toNat_add]

@[simp] theorem sub8_self (a : Byte) : sub8 a a = 0 := by rw [sub8_eq_sub, sub_self]

@[simp] theorem add8_zero (a : Byte) : add8 a 0 = a := by rw [add8_eq_add, add_zero]

@[simp] theorem runningSum_zero (rd : Nat → Byte) (a f : Nat) : runningSum rd a f 0 = rd a := add8_zero _

theorem runningSum_succ (rd : Nat → Byte) (a f i : Nat) :
    runningSum rd a f (i + 1) = add8 (rd (a + (i + 1) * f)) (runningSum rd a f i) := rfl

/-- The closed form of the running sum: reducing modulo 256 at each step is reducing once at the end. -/
theorem toNat_runningSum (rd : Nat → Byte) (a f i : Nat) :
    (runningSum rd a f i).toNat = (∑ j ∈ Finset.range (i + 1), (rd (a + j * f)).toNat) % 256 := by
  induction i with
  | zero => simp [Nat.mod_eq_of_lt (rd a).isLt]
  | succ i ih =>
    rw [runningSum_succ, toNat_add8, ih, Nat.add_mod_mod, Nat.add_comm, Finset.sum_range_succ _ (i + 1)]

/-! SUPPORT. The bytes of a sequence by frame and offset (20_memory R67): what `DELTA_ENC` and `DELTA_DEC` compute there
(41_delta_coder R145, R152), and from which addresses. -/

section
variable {r : Registers} {i k : Nat} (c : Config) (rd : Nat → Byte)

/-- Byte `k` of frame `i` lies in the sequence. -/
theorem frame_index_lt {n f : Nat} (hi : i < n) (hk : k < f) : i * f + k < n * f :=
  (index_lt hi hk).trans_eq (Nat.mul_comm f n)

/-- Only the keyframe's bytes have offsets below the frame size. -/
theorem later_not_lt_frame (f i k : Nat) : ¬ (i + 1) * f + k < f := by rw [Nat.succ_mul]; omega

/-- One frame before byte `k` of frame `i + 1` is byte `k` of frame `i`. -/
theorem later_sub_frame (a f i k : Nat) : a + (i + 1) * f + k - f = a + i * f + k := by rw [Nat.succ_mul]; omega

theorem inputsOf_deltaEnc_keyframe (hk : k < r.yuvBytes) : inputsOf .deltaEnc r k = [r.src.toNat + k] := if_pos hk

theorem deltaEncByte_keyframe (hk : k < r.yuvBytes) : deltaEncByte c r rd k = rd (r.src.toNat + k) := if_pos hk

theorem inputsOf_deltaEnc_later :
    inputsOf .deltaEnc r ((i + 1) * r.yuvBytes + k) =
      [r.src.toNat + (i + 1) * r.yuvBytes + k, r.src.toNat + i * r.yuvBytes + k] := by
  rw [inputsOf, if_neg (later_not_lt_frame _ _ _), ← Nat.add_assoc, later_sub_frame]

/-- Frame `i + 1` is differenced against the source frame before it (41_delta_coder R145). -/
theorem deltaEncByte_later :
    deltaEncByte c r rd ((i + 1) * r.yuvBytes + k) =
      sub8 (rd (r.src.toNat + (i + 1) * r.yuvBytes + k)) (rd (r.src.toNat + i * r.yuvBytes + k)) := by
  rw [deltaEncByte, if_neg (later_not_lt_frame _ _ _), ← Nat.add_assoc, later_sub_frame]

theorem inputsOf_deltaDec_frame (hk : k < r.yuvBytes) :
    inputsOf .deltaDec r (i * r.yuvBytes + k) =
      (List.range (i + 1)).map (fun j => r.src.toNat + j * r.yuvBytes + k) := by
  simp only [inputsOf, index_div hk, index_mod hk, frameAddr]

theorem deltaDecByte_frame (hk : k < r.yuvBytes) :
    deltaDecByte c r rd (i * r.yuvBytes + k) = runningSum rd (r.src.toNat + k) r.yuvBytes i := by
  simp only [deltaDecByte, index_div hk, index_mod hk]

end

theorem clear_pair {s : State} {a b : Nat} : s.Clear [a, b] ↔ a ∉ s.touched ∧ b ∉ s.touched := by simp [State.Clear]

/-- Byte `k` of frame `i` after a ready `DELTA_DEC`: the running sum of the source bytes at `k` of frames `0` to `i`. -/
theorem read_deltaDec_frame {s : State} {i k : Nat} (hi : i < s.regs.n) (hk : k < s.regs.yuvBytes)
    (hd : s.regs.dst.toNat + i * s.regs.yuvBytes + k ∉ s.touched)
    (hs : ∀ j ≤ i, s.regs.src.toNat + j * s.regs.yuvBytes + k ∉ s.touched) :
    (s.storeResult .deltaDec (effectOf .deltaDec)).succeed.mem.read (s.regs.dst.toNat + i * s.regs.yuvBytes + k) =
      runningSum s.mem.read (s.regs.src.toNat + k) s.regs.yuvBytes i := by
  have hclear : s.Clear ((s.regs.dst.toNat + i * s.regs.yuvBytes + k) ::
      inputsOf .deltaDec s.regs (i * s.regs.yuvBytes + k)) := by
    rw [inputsOf_deltaDec_frame hk, State.Clear, List.forall_mem_cons, List.forall_mem_map]
    exact ⟨hd, fun j hj => hs j (Nat.le_of_lt_succ (List.mem_range.mp hj))⟩
  exact (read_stored (frame_index_lt hi hk) (Nat.add_assoc _ _ _) hclear).trans (deltaDecByte_frame s.config _ hk)

/-! CERTIFICATES. The statements of 41_delta_coder. -/

/-- Settles O42: both are the operations of eight-bit words, whose values are the integers' modulo 256. -/
theorem deltaSampleArithmetic : Obligations.DeltaSampleArithmetic :=
  ⟨fun a b => ⟨sub8_eq_sub a b, toNat_sub8 a b⟩, fun a b => ⟨add8_eq_add a b, toNat_add8 a b⟩, by decide, by decide,
    by decide, by decide, sub8_self, by decide, by decide, by decide, add8_zero⟩

/-- Settles O36: the bytes of frame 0 and of a later frame are where `deltaEncByte` splits. -/
theorem deltaEncResult : Obligations.DeltaEncResult := by
  intro s hready
  refine ⟨_, exec_ready hready, storeResult_succeeded .deltaEnc s, fun k hk hc => ?_, fun i k hi hk hc => ?_⟩
  · have hin : k < s.regs.n * s.regs.yuvBytes :=
      hk.trans_le (Nat.le_mul_of_pos_left _ (hready.shaped.frames_ok (.inl rfl)))
    rw [← inputsOf_deltaEnc_keyframe hk] at hc
    exact (read_stored hin rfl hc).trans (deltaEncByte_keyframe s.config _ hk)
  · rw [← inputsOf_deltaEnc_later] at hc
    exact (read_stored (frame_index_lt hi hk) (Nat.add_assoc _ _ _) hc).trans (deltaEncByte_later s.config _)

/-- Settles O37: every byte is a running sum, whose first term is the keyframe's byte, whose recursion is the recurrence
on the reconstructed frame, and whose closed form is the sum modulo 256. -/
theorem deltaDecResult : Obligations.DeltaDecResult := by
  intro s hready
  refine ⟨_, exec_ready hready, storeResult_succeeded .deltaDec s, fun k hk hc => ?_, fun i k hi hk hc hs => ?_,
    fun i k hi hk hd hs => ?_⟩
  · obtain ⟨hd, hs⟩ := clear_pair.mp hc
    simpa using read_deltaDec_frame (hready.shaped.frames_ok (.inr rfl)) hk (by simpa using hd) (by simpa using hs)
  · obtain ⟨hd, hd'⟩ := clear_pair.mp hc
    rw [read_deltaDec_frame hi hk hd hs,
      read_deltaDec_frame (Nat.lt_of_succ_lt hi) hk hd' fun j hj => hs j (Nat.le_succ_of_le hj),
      runningSum_succ, Nat.add_right_comm]
  · rw [read_deltaDec_frame hi hk hd hs, toNat_runningSum]
    simp only [Nat.add_right_comm]

end Sys2Proof.Machine

namespace Sys2Proof.Machine

/-! SUPPORT. The order of the checks (60_exceptions R200): what the first failing one is once the earlier ones have passed. -/

section
variable {i : Instr} {n : Nat} {r : Registers} {e : Report}

theorem firstFault_of_checkGeometry (h : checkGeometry r = some e) : firstFault i n r = some e := by
  rw [firstFault, h]
  rfl

theorem firstFault_of_geometryOk (h : GeometryOk r) :
    firstFault i n r = (checkEmpty i r <|> checkLength i r <|> checkRange i n r <|> checkOverlap i r) := by
  rw [firstFault, checkGeometry_none.mpr h]
  rfl

theorem firstFault_of_shaped (h : Shaped i r) : firstFault i n r = (checkRange i n r <|> checkOverlap i r) := by
  rw [firstFault_of_geometryOk h.geometry, checkEmpty_none.mpr h.frames_ok, checkLength_none.mpr h.length_ok]
  rfl

theorem firstFault_of_checkRange (hs : Shaped i r) (h : checkRange i n r = some e) : firstFault i n r = some e := by
  rw [firstFault_of_shaped hs, h]
  rfl

theorem firstFault_of_regionsInRange (hs : Shaped i r) (hr : RegionsInRange i n r) :
    firstFault i n r = checkOverlap i r := by
  rw [firstFault_of_shaped hs, checkRange_none.mpr hr]
  rfl

/-! SUPPORT. What each check reports (60_exceptions R193 to R198). -/

theorem Region.inRange_eq_false {g : Region} : g.inRange n = false ↔ n < g.base + g.size := by
  rw [← Bool.not_eq_true, Region.inRange_iff, Nat.not_le]

theorem Footprint.referenceIs_eq_false {f : Footprint} {p : Region → Bool} :
    f.referenceIs p = false ↔ ∀ g, f.reference = some g → p g = false := by
  simp [← Bool.not_eq_true, Footprint.referenceIs_iff]

theorem checkGeometry_width (h : r.w = 0 ∨ r.w % 2 = 1) : checkGeometry r = some ⟨.invalidGeometry, .width⟩ :=
  if_pos (badDimension_iff.mpr h)

theorem checkGeometry_height (hw : 0 < r.w ∧ r.w % 2 = 0) (h : r.h = 0 ∨ r.h % 2 = 1) :
    checkGeometry r = some ⟨.invalidGeometry, .height⟩ := by
  have hw : badDimension r.width = false := badDimension_eq_false.mpr hw
  have hh : badDimension r.height = true := badDimension_iff.mpr h
  simp [checkGeometry, hw, hh]

theorem checkEmpty_sequence (hi : i = .deltaEnc ∨ i = .deltaDec) (h : r.n = 0) :
    checkEmpty i r = some ⟨.emptyInput, .nframes⟩ := by
  simp [checkEmpty, isSequence_iff.mpr hi, h]

theorem checkLength_deltaDec (h : r.len.toNat ≠ r.n * r.yuvBytes) :
    checkLength .deltaDec r = some ⟨.geometryMismatch, .len⟩ := by
  simp [checkLength, readsLength, h]

theorem checkRange_source (h : n < (footprint i r).source.base + (footprint i r).source.size) :
    checkRange i n r = some ⟨.busError, .src⟩ := by
  rw [checkRange_eq, Region.inRange_eq_false.mpr h]
  rfl

theorem checkRange_reference (hs : (footprint i r).source.base + (footprint i r).source.size ≤ n) {g : Region}
    (hg : (footprint i r).reference = some g) (h : n < g.base + g.size) :
    checkRange i n r = some ⟨.busError, .ref⟩ := by
  have href : (footprint i r).referenceIs (fun g => !g.inRange n) = true :=
    Footprint.referenceIs_iff.mpr ⟨g, hg, by rw [Region.inRange_eq_false.mpr h]; rfl⟩
  rw [checkRange_eq, Region.inRange_iff.mpr hs, href]
  rfl

theorem checkRange_dest (hs : (footprint i r).source.base + (footprint i r).source.size ≤ n)
    (hr : ∀ g, (footprint i r).reference = some g → g.base + g.size ≤ n)
    (h : n < (footprint i r).dest.base + (footprint i r).dest.size) :
    checkRange i n r = some ⟨.busError, .dst⟩ := by
  have href : (footprint i r).referenceIs (fun g => !g.inRange n) = false :=
    Footprint.referenceIs_eq_false.mpr fun g hg => by rw [Region.inRange_iff.mpr (hr g hg)]; rfl
  rw [checkRange_eq, Region.inRange_iff.mpr hs, href, Region.inRange_eq_false.mpr h]
  rfl

theorem checkOverlap_source {a : Nat} (hd : (footprint i r).dest.holds a = true)
    (hs : (footprint i r).source.holds a = true) : checkOverlap i r = some ⟨.overlap, .src⟩ := by
  rw [checkOverlap_eq, Region.overlaps_iff.mpr ⟨a, hd, hs⟩]
  rfl

theorem checkOverlap_reference (hs : (footprint i r).dest.Apart (footprint i r).source) {g : Region} {a : Nat}
    (hg : (footprint i r).reference = some g) (hd : (footprint i r).dest.holds a = true) (ha : g.holds a = true) :
    checkOverlap i r = some ⟨.overlap, .ref⟩ := by
  have href : (footprint i r).referenceIs (footprint i r).dest.overlaps = true :=
    Footprint.referenceIs_iff.mpr ⟨g, hg, Region.overlaps_iff.mpr ⟨a, hd, ha⟩⟩
  rw [checkOverlap_eq, Region.overlaps_eq_false.mpr hs, href]
  rfl

end

/-! SUPPORT. Codes that a command does not report. -/

theorem ErrorKind.code_injective : Function.Injective ErrorKind.code := by
  intro a b h
  cases a <;> cases b <;> simp [ErrorKind.code] at h ⊢

/-- A command whose checks do not report a kind does not put its code into `ERRCODE`. -/
theorem exec_errcode_ne {i : Instr} {s : State} {k : ErrorKind}
    (hk : ∀ e, firstFault i s.config.memSize s.regs = some e → e.kind ≠ k) (hs : s.regs.errcode ≠ k.code) :
    ∃ t, exec i s = .next t ∧ t.regs.errcode ≠ k.code := by
  rw [exec_eq_complete]
  cases hf : firstFault i s.config.memSize s.regs with
  | none => exact ⟨_, complete_ok hf, hs⟩
  | some e => exact ⟨_, complete_fault hf, fun h => hk e hf (ErrorKind.code_injective h)⟩

/-- Only a sequence command reports EmptyInput (60_exceptions R194). -/
theorem firstFault_emptyInput {i : Instr} {n : Nat} {r : Registers} {e : Report} (h : firstFault i n r = some e)
    (hk : e.kind = .emptyInput) : i = .deltaEnc ∨ i = .deltaDec := by
  have hkind := firstFault_kind h
  simp only [hk, reduceCtorEq, false_and, true_and, false_or, or_false] at hkind
  exact hkind.2

/-- Only `DELTA_DEC` reports GeometryMismatch (60_exceptions R195). -/
theorem firstFault_geometryMismatch {i : Instr} {n : Nat} {r : Registers} {e : Report} (h : firstFault i n r = some e)
    (hk : e.kind = .geometryMismatch) : i = .deltaDec := by
  have hkind := firstFault_kind h
  simp only [hk, reduceCtorEq, false_and, true_and, false_or] at hkind
  exact hkind.2

/-! CERTIFICATES. The statements of 60_exceptions. -/

/-- Settles O24: geometry is the first check, and it looks at the width first. -/
theorem invalidGeometry : Obligations.InvalidGeometry := fun _ _ =>
  ⟨fun h => exec_faulted (firstFault_of_checkGeometry (checkGeometry_width h)),
    fun hw he h => exec_faulted (firstFault_of_checkGeometry (checkGeometry_height ⟨hw, he⟩ h))⟩

/-- Settles O25: after the geometry comes the check for frames, which a frame command passes whatever `NFRAMES` holds. -/
theorem emptyInput : Obligations.EmptyInput := by
  refine ⟨fun i s hi hg hn => ?_, fun i s he hd hs => ?_⟩
  · have hfault : firstFault i s.config.memSize s.regs = some ⟨.emptyInput, .nframes⟩ := by
      rw [firstFault_of_geometryOk hg, checkEmpty_sequence hi hn]
      rfl
    exact exec_faulted hfault
  · exact exec_errcode_ne (k := .emptyInput) (fun e hf hk => (firstFault_emptyInput hf hk).elim he hd) hs

/-- Settles O26: with frames there the length is compared next, by `DELTA_DEC` alone. -/
theorem geometryMismatch : Obligations.GeometryMismatch := by
  refine ⟨fun s hg hn hl => ?_, fun i s hi hs => ?_⟩
  · have hfault : firstFault .deltaDec s.config.memSize s.regs = some ⟨.geometryMismatch, .len⟩ := by
      rw [firstFault_of_geometryOk hg, checkEmpty_none.mpr fun _ => hn, checkLength_deltaDec hl]
      rfl
    exact exec_faulted hfault
  · exact exec_errcode_ne (k := .geometryMismatch) (fun e hf hk => hi (firstFault_geometryMismatch hf hk)) hs

/-- Settles O27: sizes being legal, the range check is the first that can fail, region by region. -/
theorem busError : Obligations.BusError := fun _ _ hshaped =>
  ⟨fun h => exec_faulted (firstFault_of_checkRange hshaped (checkRange_source h)),
    fun hs _ hg h => exec_faulted (firstFault_of_checkRange hshaped (checkRange_reference hs hg h)),
    fun hs hr h => exec_faulted (firstFault_of_checkRange hshaped (checkRange_dest hs hr h))⟩

/-- Settles O28: only the overlap check is left, and a command that passes it is ready. -/
theorem overlap : Obligations.Overlap := by
  intro i s hshaped hrange
  have hlast := firstFault_of_regionsInRange hshaped hrange
  exact ⟨fun _ hd hs => exec_faulted (hlast.trans (checkOverlap_source hd hs)),
    fun hs _ _ hg hd ha => exec_faulted (hlast.trans (checkOverlap_reference hs hg hd ha)),
    fun hs hr => ⟨_, exec_ready ⟨hshaped, hrange, hs, hr⟩, storeResult_succeeded i s⟩⟩

/-- Settles O29: a command that is not ready has a first failing check, whose report is one of the block's, and fault entry
leaves the memory alone. -/
theorem faultIsPrecise : Obligations.FaultIsPrecise := by
  intro i s h
  obtain ⟨e, hf, -⟩ := exec_not_ready h
  obtain ⟨t, ht, hfaulted⟩ := exec_faulted hf
  exact ⟨t, _, _, ht, firstFault_reportable hf, hfaulted⟩

end Sys2Proof.Machine

/-! SUPPORT. The two resets (70_reset_and_hazards R220 to R222): the registers after either, the memory after a hard reset
of an idle and of a pending block, and what a write to `CTRL` answers. -/

namespace Sys2Proof.Machine

/-- Every register reads zero at reset, `CTRL` among them (10_state R41). -/
@[simp] theorem get_reset (n : Reg) : Registers.reset.get n = 0 := by cases n <;> rfl

/-- `STATUS` at reset says neither `BUSY`, `DONE` nor `ERR` (10_state R41). -/
theorem status_flags_of_reset {s : State} (h : s.regs = .reset) : s.busy = false ∧ s.done = false ∧ s.err = false := by
  simp [State.busy, State.done, State.err, statusBusy, statusDone, statusErr, h]

@[simp] theorem hardReset_regs (s : State) : s.hardReset.regs = .reset := rfl

theorem hardReset_mem_of_idle {s : State} (hb : s.busy = false) : s.hardReset.mem = s.mem := by
  simp [State.hardReset, hb]

theorem hardReset_mem_of_busy {s : State} (hb : s.busy = true) : s.hardReset.mem = s.abandon.mem := by
  simp [State.hardReset, hb]

theorem abandon_config (s : State) : s.abandon.config = s.config := by
  rcases abandon_cases s with ⟨h, -⟩ | ⟨_, _, _, -, -, h⟩ <;> rw [h]

@[simp] theorem hardReset_config (s : State) : s.hardReset.config = s.config := by
  cases hb : s.busy with
  | true => simp [State.hardReset, hb, abandon_config]
  | false => simp [State.hardReset, hb]

/-- An abandoned command has changed no byte outside its destination, whether or not its checks would pass (R222). -/
theorem read_abandon_outside {s : State} {i : Instr} (hd : decode s.regs.cmd = .command i) {a : Nat}
    (ha : (footprint i s.regs).dest.holds a = false) : s.abandon.mem.read a = s.mem.read a := by
  rcases abandon_cases s with ⟨h, -⟩ | ⟨j, f, n, hj, -, h⟩
  · rw [h]
  · cases Decoded.command.inj (hd.symm.trans hj)
    rw [h]
    exact Memory.read_store_outside _ _ (Region.not_holds_iff.mp ha)

/-- An abandoned word that would have faulted has changed nothing (R222). -/
theorem abandon_of_not_ready {s : State} (h : ∀ i, decode s.regs.cmd = .command i → ¬ s.ReadyFor i) :
    s.abandon = s := by
  rcases abandon_cases s with ⟨hs, -⟩ | ⟨i, _, _, hd, hr, -⟩
  · exact hs
  · exact absurd hr (h i hd)

theorem performHost_hardReset (s : State) : performHost .hardReset s = .next s.hardReset := rfl

theorem performHost_ctrl (s : State) (v : Word) :
    performHost (.regWrite 0x2C v) s = .next (s.regWrite Reg.ctrl.offset v) :=
  performHost_regWrite (aligned_offset .ctrl) s v

/-- Without bit 0 a write to `CTRL` does nothing (10_state R31). -/
theorem writeCtrl_of_not_bit {v : Word} (hv : v.getLsbD 0 = false) (s : State) : s.writeCtrl v = s :=
  if_neg (Bool.eq_false_iff.mp hv)

/-- A soft reset is accepted while not pending, faulted or not (R221). -/
theorem performHost_softReset {s : State} {v : Word} (hb : s.busy = false) (hv : v.getLsbD 0 = true) :
    performHost (.regWrite 0x2C v) s = .next s.softReset := by
  rw [performHost_ctrl, regWrite_ctrl hb, writeCtrl_of_bit hv]

/-! CERTIFICATES. The statements of 70_reset_and_hazards. -/

/-- Settles O7: the registers are zeroed, and `State.abandon` stores into the destination of a ready command or nowhere. -/
theorem hardResetOfPending : Obligations.HardResetOfPending := by
  intro s hb
  obtain ⟨hbusy, hdone, herr⟩ := status_flags_of_reset (hardReset_regs s)
  refine ⟨_, performHost_hardReset s, hbusy, hdone, herr, hardReset_config s, fun i hd _ a ha => ?_, fun h => ?_⟩
  · rw [hardReset_mem_of_busy hb, read_abandon_outside hd ha]
  · rw [hardReset_mem_of_busy hb, abandon_of_not_ready h]

/-- Settles O3: all three leave the register file of `Registers.reset`, and neither reset of an idle block stores a byte. -/
theorem resetValues : Obligations.ResetValues :=
  ⟨get_reset, (status_flags_of_reset State.reset_regs).1,
    fun s => ⟨_, performHost_hardReset s, get_reset, (status_flags_of_reset (hardReset_regs s)).1, hardReset_mem_of_idle⟩,
    fun s _ hb hv => ⟨_, performHost_softReset hb hv, get_reset, (status_flags_of_reset s.softReset_regs).1,
      s.softReset_mem⟩⟩

/-- Settles O6: while pending the register port ignores the write, and else `State.writeCtrl` looks at bit 0 alone. -/
theorem softReset : Obligations.SoftReset := by
  refine fun s v => ⟨fun hb hv => ⟨_, performHost_softReset hb hv, get_reset, rfl⟩, fun h => ?_⟩
  rw [performHost_ctrl]
  cases hb : s.busy with
  | true => rw [regWrite_of_busy hb]
  | false =>
    have hv : v.getLsbD 0 = false := h.resolve_left (by simp [hb])
    rw [regWrite_ctrl hb, writeCtrl_of_not_bit hv]

end Sys2Proof.Machine

/-! SUPPORT. What one transaction of the host and one operation of the register port answer, said once, and which fields
each of them leaves alone. -/

namespace Sys2Proof.Machine

/-- The state that each accepted transaction of the host leaves (00_scope R8). -/
inductive HostTransition (s : State) : HostAction → State → Prop
  | regWrite (off v : Word) : HostTransition s (.regWrite off v) (s.regWrite off v)
  | regRead (off : Word) : HostTransition s (.regRead off) (s.regRead off)
  | memWrite (a : Nat) (b : Byte) (ha : a < s.config.memSize) : HostTransition s (.memWrite a b) (s.hostWrite a b)
  | memRead (a : Nat) (ha : a < s.config.memSize) : HostTransition s (.memRead a) (s.hostRead a)
  | hardReset : HostTransition s .hardReset s.hardReset

/-- A transaction that answers a next state is accepted: aligned, or at an address that exists. -/
theorem hostTransition_of_performHost {h : HostAction} {s t : State} (ht : performHost h s = .next t) :
    HostTransition s h t := by
  cases h with
  | hardReset =>
    cases ht
    exact .hardReset
  | regWrite off v =>
    simp only [performHost] at ht
    split at ht <;> cases ht
    exact .regWrite off v
  | regRead off =>
    simp only [performHost] at ht
    split at ht <;> cases ht
    exact .regRead off
  | memWrite a b =>
    simp only [performHost] at ht
    split at ht <;> cases ht
    exact .memWrite a b ‹_›
  | memRead a =>
    simp only [performHost] at ht
    split at ht <;> cases ht
    exact .memRead a ‹_›

theorem performHost_memWrite {s : State} {a : Nat} (ha : a < s.config.memSize) (b : Byte) :
    performHost (.memWrite a b) s = .next (s.hostWrite a b) := if_pos ha

theorem performHost_memRead {s : State} {a : Nat} (ha : a < s.config.memSize) :
    performHost (.memRead a) s = .next (s.hostRead a) := if_pos ha

/-- A write to `CMD` is lost or accepted (10_state R37, R39). -/
theorem issue_cases (s : State) (v : Word) :
    s.issue v = s ∨ (s.err = false ∧ s.issue v = { s with
      regs := { s.regs with cmd := v, status := statusIssued s.regs.status }
      unpolled := { s.regs with cmd := v, status := statusIssued s.regs.status } :: s.unpolled
      touched := [] }) := by
  cases he : s.err with
  | true => exact .inl (issue_of_err he v)
  | false => exact .inr ⟨rfl, issue_of_not_err he v⟩

/-- A host read changes the byte received and the count of free bytes; the byte is the memory's where no command under way
has its destination. -/
theorem hostRead_cases (s : State) (a : Nat) :
    ∃ b n, s.hostRead a = { s with memData := b, freeCount := n } ∧ (s.inOpenDest a = false → b = s.mem.read a) := by
  unfold State.hostRead
  cases s.inOpenDest a with
  | true => exact ⟨_, _, rfl, nofun⟩
  | false => exact ⟨s.mem.read a, s.freeCount, rfl, fun _ => rfl⟩

@[simp] theorem hostRead_config (s : State) (a : Nat) : (s.hostRead a).config = s.config := by
  obtain ⟨b, n, h, -⟩ := hostRead_cases s a
  rw [h]

@[simp] theorem hostRead_unpolled (s : State) (a : Nat) : (s.hostRead a).unpolled = s.unpolled := by
  obtain ⟨b, n, h, -⟩ := hostRead_cases s a
  rw [h]

@[simp] theorem hostRead_touched (s : State) (a : Nat) : (s.hostRead a).touched = s.touched := by
  obtain ⟨b, n, h, -⟩ := hostRead_cases s a
  rw [h]

theorem hostRead_memData {s : State} {a : Nat} (h : s.inOpenDest a = false) : (s.hostRead a).memData = s.mem.read a := by
  obtain ⟨b, n, hs, hb⟩ := hostRead_cases s a
  rw [hs]
  exact hb h

/-- The address is in no destination of a command under way, checks passing or not (70_reset_and_hazards R225). -/
theorem inOpenDest_eq_false {s : State} {a : Nat} : s.inOpenDest a = false ↔
    ∀ r ∈ s.unpolled, ∀ i, decode r.cmd = .command i → (footprint i r).dest.holds a = false := by
  simp only [State.inOpenDest, List.any_eq_false, Bool.not_eq_true, inDest_eq_false]

@[simp] theorem hostWrite_config (s : State) (a : Nat) (b : Byte) : (s.hostWrite a b).config = s.config := by
  obtain ⟨m, n, h, -⟩ := hostWrite_cases s a b
  rw [h]

@[simp] theorem hostWrite_unpolled (s : State) (a : Nat) (b : Byte) : (s.hostWrite a b).unpolled = s.unpolled := by
  obtain ⟨m, n, h, -⟩ := hostWrite_cases s a b
  rw [h]

@[simp] theorem hostWrite_touched (s : State) (a : Nat) (b : Byte) :
    (s.hostWrite a b).touched = if s.busy then a :: s.touched else s.touched := by
  obtain ⟨m, n, h, -⟩ := hostWrite_cases s a b
  rw [h]

@[simp] theorem regWrite_config (s : State) (off v : Word) : (s.regWrite off v).config = s.config := by
  rcases regWrite_cases s off v with h | ⟨-, n, -, -, h⟩ | ⟨-, -, h⟩ | ⟨-, -, -, h⟩ <;> rw [h]
  · rcases issue_cases s v with h | ⟨-, h⟩ <;> rw [h]
  · rfl

@[simp] theorem hardReset_touched (s : State) : s.hardReset.touched = [] := rfl

@[simp] theorem hardReset_unpolled (s : State) : s.hardReset.unpolled = s.unpolled := by
  unfold State.hardReset
  split
  · rcases abandon_cases s with ⟨h, -⟩ | ⟨_, _, _, -, -, h⟩ <;> rw [h]
  · rfl

/-- An operand write leaves the four other stored registers alone (10_state R24). -/
theorem setOperand_keeps (r : Registers) (n : Reg) (v : Word) :
    (r.setOperand n v).cmd = r.cmd ∧ (r.setOperand n v).status = r.status ∧
      (r.setOperand n v).errcode = r.errcode ∧ (r.setOperand n v).errinfo = r.errinfo := by
  cases n <;> exact ⟨rfl, rfl, rfl, rfl⟩

/-! SUPPORT. The invariant under each operation a step is made of. -/

theorem legalStatus_iff {w : Word} : w ∈ legalStatus ↔ w = 0 ∨ w = 1 ∨ w = 2 ∨ w = 4 := by simp [legalStatus]

/-- While pending, no other bit of `STATUS` is set (10_state R27). -/
theorem eq_one_of_busy {w : Word} (h : w ∈ legalStatus) (hb : statusBusy w = true) : w = 1 := by
  rcases legalStatus_iff.mp h with rfl | rfl | rfl | rfl <;> simp [statusBusy] at hb ⊢

/-- With a fault latched, no other bit of `STATUS` is set (10_state R27). -/
theorem eq_four_of_err {w : Word} (h : w ∈ legalStatus) (he : statusErr w = true) : w = 4 := by
  rcases legalStatus_iff.mp h with rfl | rfl | rfl | rfl <;> simp [statusErr] at he ⊢

/-- An accepted command leaves `BUSY` alone set (10_state R37). -/
theorem statusIssued_eq_one {w : Word} (h : w ∈ legalStatus) (he : statusErr w = false) : statusIssued w = 1 := by
  rcases legalStatus_iff.mp h with rfl | rfl | rfl | rfl <;> simp [statusErr, statusIssued] at he ⊢

theorem Inv.status_of_busy {s : State} (h : Inv s) (hb : s.busy = true) : s.regs.status = 1 :=
  eq_one_of_busy h.status_ok hb

theorem Inv.busy_of_err {s : State} (h : Inv s) (he : s.err = true) : s.busy = false := by
  rw [State.busy, eq_four_of_err h.status_ok he]
  rfl

theorem Inv.err_of_busy {s : State} (h : Inv s) (hb : s.busy = true) : s.err = false := by
  rw [State.err, h.status_of_busy hb]
  rfl

/-- The invariant holds with zero registers: nothing is latched and nothing pending (10_state R41). -/
theorem inv_of_reset_regs {t : State} (hr : t.regs = .reset) (hc : t.config.wf = true) (hm : Memory.wf t.mem)
    (ha : ∀ c ∈ t.mem, c.1 < t.config.memSize) (ht : t.touched = []) : Inv t := by
  obtain ⟨hbusy, -, herr⟩ := status_flags_of_reset hr
  exact {
    config_wf := hc
    status_ok := by rw [hr]; decide
    no_fault  := fun _ => by rw [hr]; exact ⟨rfl, rfl⟩
    fault_ok  := fun he => absurd (herr.symm.trans he) nofun
    mem_wf    := hm
    mem_in    := ha
    pending   := fun hb => absurd (hbusy.symm.trans hb) nofun
    untouched := fun _ => ht }

theorem inv_withAgenda {s : State} (h : Inv s) (rest : List Event) : Inv (s.withAgenda rest) := { h with }

/-- Fault entry of a pending block, with a report the block can make (60_exceptions R190, R199). -/
theorem inv_raise {s : State} (h : Inv s) (hb : s.busy = true) {e : Report}
    (he : (e.kind.code, e.info.offset) ∈ reportable) : Inv (s.raise e) where
  config_wf := h.config_wf
  status_ok := by
    have hst : (s.raise e).regs.status = statusFaulted 1 := congrArg statusFaulted (h.status_of_busy hb)
    rw [hst]
    decide
  no_fault  := fun hn => absurd ((raise_faulted s e).err.symm.trans hn) nofun
  fault_ok  := fun _ => he
  mem_wf    := h.mem_wf
  mem_in    := h.mem_in
  pending   := fun hn => absurd ((raise_faulted s e).idle.symm.trans hn) nofun
  untouched := fun _ => rfl

/-- Success of a pending block whose command's destination is in range (10_state R40). -/
theorem inv_storeResult_succeed {s : State} (h : Inv s) (hb : s.busy = true) {i : Instr} (hr : s.ReadyFor i) :
    Inv (s.storeResult i (effectOf i)).succeed where
  config_wf := h.config_wf
  status_ok := by
    have hst : (s.storeResult i (effectOf i)).succeed.regs.status = statusSucceeded 1 :=
      congrArg statusSucceeded (h.status_of_busy hb)
    rw [hst]
    decide
  no_fault  := fun _ => h.no_fault (h.err_of_busy hb)
  fault_ok  := fun he => absurd (((storeResult_succeeded i s).err.trans (h.err_of_busy hb)).symm.trans he) nofun
  mem_wf    := Memory.wf_store h.mem_wf _ _ _
  mem_in    := Memory.addr_store h.mem_in hr.in_range.dest_in
  pending   := fun hn => absurd ((storeResult_succeeded i s).idle.symm.trans hn) nofun
  untouched := fun _ => rfl

theorem inv_exec {i : Instr} {s t : State} (h : Inv s) (hb : s.busy = true) (ht : exec i s = .next t) : Inv t := by
  by_cases hr : s.ReadyFor i
  · cases (exec_ready hr).symm.trans ht
    exact inv_storeResult_succeed h hb hr
  · obtain ⟨e, hf, he⟩ := exec_not_ready hr
    cases he.symm.trans ht
    exact inv_raise h hb (firstFault_reportable hf)

theorem inv_engineStep {s t : State} (h : Inv s) (ht : engineStep s = .next t) : Inv t := by
  rcases engineStep_cases s with ⟨-, he⟩ | ⟨hb, i, -, he⟩ | ⟨hb, r, -, he⟩ <;> rw [he] at ht
  · cases ht
    exact h
  · exact inv_exec h hb ht
  · cases ht
    exact inv_raise h hb (by decide)

/-- An accepted write to `CMD` (10_state R37): the idle `STATUS` becomes `BUSY` alone, and the interval it opens has the
registers of the issue. -/
theorem inv_issue {s : State} (h : Inv s) (v : Word) : Inv (s.issue v) := by
  rcases issue_cases s v with hs | ⟨he, hs⟩ <;> rw [hs]
  · exact h
  · exact { h with
      status_ok := (statusIssued_eq_one h.status_ok he).symm ▸ legalStatus_iff.mpr (.inr (.inl rfl))
      no_fault  := fun _ => h.no_fault he
      fault_ok  := fun hf => absurd (((err_issued _).trans he).symm.trans hf) nofun
      pending   := fun _ => rfl
      untouched := fun _ => rfl }

theorem inv_setOperand {s : State} (h : Inv s) (hb : s.busy = false) (n : Reg) (v : Word) :
    Inv { s with regs := s.regs.setOperand n v } := by
  obtain ⟨-, hst, hcode, hinfo⟩ := setOperand_keeps s.regs n v
  have hbusy : statusBusy (s.regs.setOperand n v).status = false := by rw [hst]; exact hb
  exact {
    config_wf := h.config_wf
    status_ok := by rw [hst]; exact h.status_ok
    no_fault  := by rw [State.err, hst, hcode, hinfo]; exact h.no_fault
    fault_ok  := by rw [State.err, hst, hcode, hinfo]; exact h.fault_ok
    mem_wf    := h.mem_wf
    mem_in    := h.mem_in
    pending   := fun hn => absurd (hbusy.symm.trans hn) nofun
    untouched := fun _ => h.untouched hb }

theorem inv_regWrite {s : State} (h : Inv s) (off v : Word) : Inv (s.regWrite off v) := by
  rcases regWrite_cases s off v with hs | ⟨hb, n, -, -, hs⟩ | ⟨-, -, hs⟩ | ⟨hb, -, -, hs⟩ <;> rw [hs]
  · exact h
  · exact inv_setOperand h hb n v
  · exact inv_issue h v
  · exact inv_of_reset_regs rfl h.config_wf h.mem_wf h.mem_in (h.untouched hb)

/-- A read of `STATUS` ends the intervals only when no command is pending (70_reset_and_hazards R225). -/
theorem inv_regRead {s : State} (h : Inv s) (off : Word) : Inv (s.regRead off) :=
  { h with
    pending := fun hb => by
      have hb : s.busy = true := hb
      simpa [hb] using h.pending hb }

theorem inv_hostWrite {s : State} (h : Inv s) {a : Nat} (ha : a < s.config.memSize) (b : Byte) :
    Inv (s.hostWrite a b) := by
  obtain ⟨m, n, hs, hwf, hin, -⟩ := hostWrite_cases s a b
  rw [hs]
  exact { h with
    mem_wf    := hwf h.mem_wf
    mem_in    := hin ha h.mem_in
    untouched := fun hb => by
      have hb : s.busy = false := hb
      simpa [hb] using h.untouched hb }

theorem inv_hostRead {s : State} (h : Inv s) (a : Nat) : Inv (s.hostRead a) := by
  obtain ⟨b, n, hs, -⟩ := hostRead_cases s a
  rw [hs]
  exact { h with }

/-- An abandoned command has written its destination, in range, or nothing (70_reset_and_hazards R222). -/
theorem hardReset_mem_ok {s : State} (h : Inv s) :
    Memory.wf s.hardReset.mem ∧ ∀ c ∈ s.hardReset.mem, c.1 < s.config.memSize := by
  cases hb : s.busy with
  | false =>
    rw [hardReset_mem_of_idle hb]
    exact ⟨h.mem_wf, h.mem_in⟩
  | true =>
    rw [hardReset_mem_of_busy hb]
    rcases abandon_cases s with ⟨hs, -⟩ | ⟨i, f, n, -, hr, hs⟩ <;> rw [hs]
    · exact ⟨h.mem_wf, h.mem_in⟩
    · exact ⟨Memory.wf_store h.mem_wf _ _ _, Memory.addr_store h.mem_in hr.in_range.dest_in⟩

theorem inv_hardReset {s : State} (h : Inv s) : Inv s.hardReset := by
  obtain ⟨hwf, hin⟩ := hardReset_mem_ok h
  refine inv_of_reset_regs (hardReset_regs s) ?_ hwf ?_ (hardReset_touched s) <;> rw [hardReset_config]
  · exact h.config_wf
  · exact hin

theorem inv_performHost {h : HostAction} {s t : State} (hs : Inv s) (ht : performHost h s = .next t) : Inv t := by
  cases hostTransition_of_performHost ht with
  | regWrite off v => exact inv_regWrite hs off v
  | regRead off => exact inv_regRead hs off
  | memWrite a b ha => exact inv_hostWrite hs ha b
  | memRead a _ => exact inv_hostRead hs a
  | hardReset => exact inv_hardReset hs

/-! CERTIFICATES. The statements of the whole machine and of power-on. -/

/-- Settles O53: a step is a turn of the engine or a transaction of the host, and each operation either is made of keeps
the invariant. -/
theorem stepKeepsInv : Obligations.StepKeepsInv := by
  intro s t h ht
  rcases step_cases s with ⟨-, hs⟩ | ⟨act, rest, -, hs⟩ <;> rw [hs] at ht
  · exact inv_engineStep (inv_withAgenda h _) ht
  · exact inv_performHost (inv_withAgenda h rest) ht

/-- Settles O5: the contents are those given, and registers are zero; for `State.reset` every byte given is what an
unlisted address reads as. -/
theorem powerOnFree : Obligations.PowerOnFree := by
  refine ⟨fun config contents => ⟨fun a ha => Memory.read_ofBytes contents ha, get_reset,
    (status_flags_of_reset (State.powerOn_regs config contents)).1, rfl, fun hwf => ?_⟩, ?_⟩
  · exact inv_of_reset_regs rfl hwf (Memory.wf_ofBytes _ _) (Memory.addr_ofBytes _ _) rfl
  · rw [State.powerOn, Config.document, Memory.ofBytes_unlisted]
    rfl

/-- Settles O4: `State.reset` has zero registers, a legal configuration and nothing listed or remembered. -/
theorem resetInv : Obligations.ResetInv :=
  inv_of_reset_regs rfl (by decide) Memory.wf_nil nofun rfl

end Sys2Proof.Machine

/-! SUPPORT. What a write to the frame memory leaves (20_memory R61, 70_reset_and_hazards R225), who moves in a step, and
what a turn of the engine does (10_state R40). -/

namespace Sys2Proof.Machine

/-- An offset that holds a read-only register or none takes no write (10_state R21). -/
theorem regWrite_without_effect {s : State} {off : Word} (v : Word)
    (h : ∀ n : Reg, off = n.offset → n = .status ∨ n = .errcode ∨ n = .errinfo) : s.regWrite off v = s := by
  have absent : ∀ n : Reg, (n ≠ .status ∧ n ≠ .errcode ∧ n ≠ .errinfo) → Reg.ofOffset off ≠ some n := by
    rintro n ⟨h₁, h₂, h₃⟩ ho
    rcases h n (ofOffset_some ho) with e | e | e
    exacts [h₁ e, h₂ e, h₃ e]
  rcases regWrite_cases s off v with hs | ⟨-, n, ho, hn, -⟩ | ⟨-, ho, -⟩ | ⟨-, ho, -, -⟩
  · exact hs
  · exact absurd ho (absent n
      ⟨(ne_of_isOperand rfl hn).symm, (ne_of_isOperand rfl hn).symm, (ne_of_isOperand rfl hn).symm⟩)
  · exact absurd ho (absent .cmd ⟨nofun, nofun, nofun⟩)
  · exact absurd ho (absent .ctrl ⟨nofun, nofun, nofun⟩)

/-- Outside the destinations of commands under way a host write is a plain write of memory. -/
theorem read_hostWrite_outside {s : State} {a x : Nat} (b : Byte)
    (hx : ∀ r ∈ s.unpolled, ∀ i, liveCommand s.config.memSize r = some i → (footprint i r).dest.holds x = false)
    (ha : x = a → s.inOpenDest a = false) : (s.hostWrite a b).mem.read x = if x = a then b else s.mem.read x := by
  obtain ⟨m, n, hs, -, -, hread⟩ := hostWrite_cases s a b
  have hdest : x = a → ∀ r ∈ s.unpolled, inDest r a = false := fun e r hr =>
    inDest_eq_false.mpr (inOpenDest_eq_false.mp (ha e) r hr)
  simp only [hs, hread x hx hdest, Memory.read_write, eq_comm]

/-- An address in no region of a command under way may be written freely: no other byte changes. -/
theorem read_hostWrite_free {s : State} {a : Nat} (b : Byte) (hd : s.inOpenDest a = false)
    (h : ∀ r ∈ s.unpolled, ∀ i, liveCommand s.config.memSize r = some i →
      (footprint i r).source.holds a = false ∧ ∀ g, (footprint i r).reference = some g → g.holds a = false) (x : Nat) :
    (s.hostWrite a b).mem.read x = if x = a then b else s.mem.read x := by
  have hdest := inOpenDest_eq_false.mp hd
  have hmem : (s.hostWrite a b).mem.read x = (s.mem.write a b).read x :=
    foldl_scramble_undisturbed
      (s := { s with mem := s.mem.write a b, touched := if s.busy then a :: s.touched else s.touched })
      (fun r hr => inDest_eq_false.mpr (hdest r hr))
      (fun r hr i hl => ⟨hdest r hr i (liveCommand_eq_some hl).1, h r hr i hl⟩) x
  simp only [hmem, Memory.read_write, eq_comm]

theorem inOpenDest_of_nil {s : State} (h : s.unpolled = []) (a : Nat) : s.inOpenDest a = false := by
  simp [State.inOpenDest, h]

/-- A read of `STATUS` with `BUSY = 0` ends every interval (70_reset_and_hazards R225). -/
theorem unpolled_regRead_status {s : State} (hb : s.busy = false) : (s.regRead Reg.status.offset).unpolled = [] := by
  simp [hb]

/-- No other register read does. -/
theorem unpolled_regRead_of {s : State} {off : Word} (h : s.busy = true ∨ off ≠ Reg.status.offset) :
    (s.regRead off).unpolled = s.unpolled := by
  rw [State.regRead_unpolled, if_neg]
  rw [Bool.and_eq_true, decide_eq_true_iff, Bool.not_eq_true']
  rintro ⟨ho, hb⟩
  exact h.elim (by simp [hb]) (absurd (ofOffset_some ho))

/-- Nothing but a write to `CMD` opens an interval (70_reset_and_hazards R225). -/
theorem unpolled_regWrite_of {s : State} {off : Word} (v : Word) (h : off ≠ Reg.cmd.offset) :
    (s.regWrite off v).unpolled = s.unpolled := by
  rcases regWrite_cases s off v with hs | ⟨-, n, -, -, hs⟩ | ⟨-, ho, -⟩ | ⟨-, -, -, hs⟩
  · rw [hs]
  · rw [hs]
  · exact absurd (ofOffset_some ho) h
  · rw [hs, State.softReset_unpolled]

theorem step_of_nil {s : State} (h : s.agenda = []) : step s = engineStep s := by simp [step, h]

theorem step_of_engine {s : State} {rest : List Event} (h : s.agenda = .engine :: rest) :
    step s = engineStep (s.withAgenda rest) := by simp [step, h]

theorem step_of_host {s : State} {h : HostAction} {rest : List Event} (ha : s.agenda = .host h :: rest) :
    step s = performHost h (s.withAgenda rest) := by simp [step, ha]

theorem engineStep_of_idle {s : State} (hb : s.busy = false) : engineStep s = .next s := by simp [engineStep, hb]

theorem engineStep_of_command {s : State} {i : Instr} (hb : s.busy = true) (hd : decode s.regs.cmd = .command i) :
    engineStep s = exec i s := by
  simp [engineStep, State.commandWord, hb, hd]

/-- The word of no command raises IllegalCommand (60_exceptions R191). -/
theorem engineStep_of_illegal {s : State} {r : Reject} (hb : s.busy = true) (hd : decode s.regs.cmd = .illegal r) :
    engineStep s = .next (s.raise illegalReport) := by
  simp [engineStep, State.commandWord, hb, hd]

/-- After a completion step nothing is remembered of host writes (log entry 6). -/
theorem exec_touched {i : Instr} {s t : State} (h : exec i s = .next t) : t.touched = [] := by
  rw [exec_eq_complete] at h
  rcases complete_cases h with ⟨e, -, rfl⟩ | ⟨-, rfl⟩ <;> rfl

/-- The turn of the engine on a pending block completes the command, whatever it is (10_state R40). -/
theorem engineStep_completes {s : State} (hb : s.busy = true) :
    ∃ t, engineStep s = .next t ∧ t.busy = false ∧ t.touched = [] := by
  rcases engineStep_cases s with ⟨hi, -⟩ | ⟨-, i, -, he⟩ | ⟨-, r, -, he⟩
  · rw [hb] at hi
    cases hi
  · obtain ⟨t, ht⟩ := exec_next i s
    exact ⟨t, he.trans ht, exec_idle ht, exec_touched ht⟩
  · exact ⟨_, he, (raise_faulted s illegalReport).idle, rfl⟩

theorem performHost_config {h : HostAction} {s t : State} (ht : performHost h s = .next t) : t.config = s.config := by
  cases hostTransition_of_performHost ht with
  | regWrite off v => exact regWrite_config s off v
  | regRead off => exact State.regRead_config s off
  | memWrite a b _ => exact hostWrite_config s a b
  | memRead a _ => exact hostRead_config s a
  | hardReset => exact hardReset_config s

/-- Under a latched fault no register write but a soft reset changes `CMD`, `STATUS`, `ERRCODE` or `ERRINFO`
(10_state R39). -/
theorem regWrite_keeps_fault {s : State} {off v : Word} (he : s.err = true)
    (hv : off = Reg.ctrl.offset → v.getLsbD 0 = false) :
    (s.regWrite off v).regs.cmd = s.regs.cmd ∧ (s.regWrite off v).regs.status = s.regs.status ∧
      (s.regWrite off v).regs.errcode = s.regs.errcode ∧ (s.regWrite off v).regs.errinfo = s.regs.errinfo := by
  rcases regWrite_cases s off v with hs | ⟨-, n, -, -, hs⟩ | ⟨-, -, hs⟩ | ⟨-, ho, hbit, -⟩
  · rw [hs]
    exact ⟨rfl, rfl, rfl, rfl⟩
  · rw [hs]
    exact setOperand_keeps s.regs n v
  · rw [hs, issue_of_err he]
    exact ⟨rfl, rfl, rfl, rfl⟩
  · exact absurd ((hv (ofOffset_some ho)).symm.trans hbit) nofun

/-- Under a latched fault every step but a soft or a hard reset keeps the fault's registers (60_exceptions R202). -/
theorem step_keeps_fault {s t : State} (h : Inv s) (he : s.err = true) (ht : step s = .next t)
    (hsoft : ∀ v rest, s.agenda = .host (.regWrite 0x2C v) :: rest → v.getLsbD 0 = false)
    (hhard : ∀ rest, s.agenda ≠ .host .hardReset :: rest) :
    t.regs.cmd = s.regs.cmd ∧ t.regs.status = s.regs.status ∧ t.regs.errcode = s.regs.errcode ∧
      t.regs.errinfo = s.regs.errinfo := by
  rcases step_cases s with ⟨-, hs⟩ | ⟨act, rest, ha, hs⟩ <;> rw [hs] at ht
  · cases (engineStep_of_idle (s := s.withAgenda s.agenda.tail) (h.busy_of_err he)).symm.trans ht
    exact ⟨rfl, rfl, rfl, rfl⟩
  · by_cases hw : ∃ off v, act = .regWrite off v
    · obtain ⟨off, v, rfl⟩ := hw
      cases hostTransition_of_performHost ht
      refine regWrite_keeps_fault (s := s.withAgenda rest) he fun ho => hsoft v rest ?_
      rw [ha, ho]
      rfl
    · have hregs : t.regs = s.regs := by
        refine performHost_regs (s := s.withAgenda rest) ht (fun off v e => hw ⟨off, v, e⟩) ?_
        rintro rfl
        exact hhard rest ha
      rw [hregs]
      exact ⟨rfl, rfl, rfl, rfl⟩

/-! SUPPORT. Runs of the machine: polling a pending block. -/

theorem run_succ {M : Host.Core} {s u : M.State} (h : M.step s = .next u) (n : Nat) : M.run (n + 1) s = M.run n u := by
  rw [Host.Core.run, h]

theorem run_one {M : Host.Core} (s : M.State) : M.run 1 s = M.step s := by
  cases h : M.step s <;> simp [Host.Core.run, h]

/-- One step more of a run that has not stopped. -/
theorem run_succ_of_next {M : Host.Core} {n : Nat} {s t : M.State} (h : M.run n s = .next t) :
    M.run (n + 1) s = M.step t := by
  induction n generalizing s with
  | zero =>
    cases h
    exact run_one t
  | succ n ih =>
    rw [Host.Core.run] at h
    cases hs : M.step s with
    | next u =>
      rw [hs] at h
      rw [run_succ hs]
      exact ih h
    | fault r =>
      rw [hs] at h
      cases h
    | refused r =>
      rw [hs] at h
      cases h

/-- A poll of `STATUS` that is next is performed (30_encoding R99). -/
theorem step_poll {s : State} {rest : List Event} (h : s.agenda = .host (.regRead 0x04) :: rest) :
    step s = .next ((s.withAgenda rest).regRead Reg.status.offset) :=
  (step_of_host h).trans (performHost_regRead (aligned_offset .status) _)

/-- Polls of `STATUS` change nothing of the block and return what `STATUS` holds (30_encoding R99). -/
theorem run_polls {n : Nat} {s : State} (h : s.agenda = List.replicate n (.host (.regRead 0x04))) :
    ∃ t : State, Host.Core.run core n s = .next t ∧ t.regs = s.regs ∧ t.mem = s.mem ∧ t.agenda = [] ∧
      (0 < n ∨ s.regData = s.regs.status → t.regData = s.regs.status) := by
  induction n generalizing s with
  | zero => exact ⟨s, rfl, rfl, rfl, h, fun hd => hd.resolve_left (Nat.lt_irrefl 0)⟩
  | succ n ih =>
    obtain ⟨t, hrun, hregs, hmem, hagenda, hdata⟩ :=
      ih (s := (s.withAgenda (List.replicate n (.host (.regRead 0x04)))).regRead Reg.status.offset) rfl
    exact ⟨t, (run_succ (M := core) (step_poll h) n).trans hrun, hregs, hmem, hagenda,
      fun _ => hdata (.inr (regValue_offset _ .status))⟩

/-! CERTIFICATES. The statements of the host's accesses, of the step and of the whole machine. -/

/-- Settles O12: the offset is that of no register a write reaches, since offsets tell the registers apart. -/
theorem writesWithoutEffect : Obligations.WritesWithoutEffect := by
  intro s off v ha h
  rw [performHost_regWrite (aligned_iff.mpr ha), regWrite_without_effect v]
  rcases h with rfl | rfl | rfl | h
  · exact fun n e => .inl (offset_inj (n := .status) e.symm)
  · exact fun n e => .inr (.inl (offset_inj (n := .errcode) e.symm))
  · exact fun n e => .inr (.inr (offset_inj (n := .errinfo) e.symm))
  · exact fun n e => absurd e (h n)

/-- Settles O14: the port looks at the alignment before anything else. -/
theorem unalignedRefused : Obligations.UnalignedRefused := by
  intro s off v h
  have hn : ¬ aligned off = true := fun ha => h (aligned_iff.mp ha)
  exact ⟨if_neg hn, if_neg hn⟩

/-- Settles O15: outside destinations under way the write is a plain one, and away from their inputs too it disturbs
nothing. -/
theorem hostByteWrite : Obligations.HostByteWrite := by
  intro s a b ha
  obtain ⟨m, n, hs, -⟩ := hostWrite_cases s a b
  refine ⟨_, performHost_memWrite ha b, by rw [hs], by rw [hs], by rw [hs], fun x hne hx => ?_, fun hd => ?_,
    fun hd hin x => read_hostWrite_free b (inOpenDest_eq_false.mpr hd) hin x⟩
  · rw [read_hostWrite_outside b hx fun e => absurd e hne, if_neg hne]
  · rw [read_hostWrite_outside b (fun r hr i hl => hd r hr i (liveCommand_eq_some hl).1)
      fun _ => inOpenDest_eq_false.mpr hd, if_pos rfl]

/-- Settles O16: a host read changes `memData` and the count of free bytes alone. -/
theorem hostByteRead : Obligations.HostByteRead := by
  intro s a ha
  obtain ⟨b, n, hs, -⟩ := hostRead_cases s a
  exact ⟨_, performHost_memRead ha, by rw [hs], by rw [hs], by rw [hs], by rw [hs],
    fun hd => hostRead_memData (inOpenDest_eq_false.mpr hd)⟩

/-- Settles O17: an issue and the completion step forget, a host write adds, and on a pending block no other transaction
but a hard reset looks at the field. -/
theorem touchedIsWhatHostWrote : Obligations.TouchedIsWhatHostWrote := by
  refine ⟨fun s v hb he => ?_, fun s a b ha => ⟨_, performHost_memWrite ha b, hostWrite_touched s a b⟩,
    fun h s t hb ht hw hr => ?_, fun s => ⟨_, performHost_hardReset s, hardReset_touched s⟩, fun s t hb ht => ?_⟩
  · refine ⟨_, performHost_regWrite (aligned_offset .cmd) s v, ?_⟩
    rw [regWrite_cmd hb, issue_of_not_err he]
  · cases hostTransition_of_performHost ht with
    | regWrite off v => rw [regWrite_of_busy hb]
    | regRead off => rfl
    | memWrite a b _ => exact absurd rfl (hw a b)
    | memRead a _ => exact hostRead_touched s a
    | hardReset => exact absurd rfl hr
  · obtain ⟨u, hu, -, htouched⟩ := engineStep_completes hb
    cases hu.symm.trans ht
    exact htouched

/-- Settles O18: only an issue and a `STATUS` read touch `unpolled`; once it is empty no address is in a region under way. -/
theorem pollEndsInterval : Obligations.PollEndsInterval := by
  refine ⟨fun s v hb he => ?_, fun s hb => ?_, fun h s t ht hcmd hpoll => ?_,
    fun s t ht => (engineStep_framed ht).polls_kept⟩
  · refine ⟨_, performHost_regWrite (aligned_offset .cmd) s v, ?_⟩
    rw [regWrite_cmd hb, issue_of_not_err he]
  · have hend := unpolled_regRead_status hb
    refine ⟨_, performHost_regRead (aligned_offset .status) s, hb, hend, rfl, fun a ha => ⟨?_, fun b => ?_⟩⟩
    · exact ⟨_, performHost_memRead (s := s.regRead _) ha, hostRead_memData (inOpenDest_of_nil hend a)⟩
    · exact ⟨_, performHost_memWrite (s := s.regRead _) ha b,
        read_hostWrite_free (s := s.regRead _) b (inOpenDest_of_nil hend a) (by rw [hend]; nofun)⟩
  · cases hostTransition_of_performHost ht with
    | regWrite off v =>
      refine unpolled_regWrite_of v ?_
      rintro rfl
      exact hcmd v rfl
    | regRead off =>
      refine unpolled_regRead_of (hpoll.imp_right fun hne => ?_)
      rintro rfl
      exact hne rfl
    | memWrite a b _ => exact hostWrite_unpolled s a b
    | memRead a _ => exact hostRead_unpolled s a
    | hardReset => exact hardReset_unpolled s

/-- Settles O19: a byte access looks at the address before anything else. -/
theorem hostAddressOutside : Obligations.HostAddressOutside :=
  fun _ _ _ h => ⟨if_neg h.not_gt, if_neg h.not_gt⟩

/-- Settles O20: the agenda says who moves, and `BUSY` and the decoder what the engine does. -/
theorem stepRunsDecoded : Obligations.StepRunsDecoded := by
  refine fun s => ⟨fun i hb hd => ⟨fun ha => ?_, fun rest ha => ?_⟩, fun h rest ha => step_of_host ha,
    fun hb => ⟨fun ha => ?_, fun rest ha => ?_⟩⟩
  · rw [step_of_nil ha, engineStep_of_command hb hd]
  · exact (step_of_engine ha).trans (engineStep_of_command hb hd)
  · rw [step_of_nil ha, engineStep_of_idle hb]
  · exact (step_of_engine ha).trans (engineStep_of_idle hb)

/-- Settles O21: a word that is none of the six decodes to no command (O2), and the engine then raises IllegalCommand. -/
theorem illegalWord : Obligations.IllegalWord := by
  intro s hb hne
  obtain ⟨-, -, hillegal⟩ := decodeEncodeAgree
  obtain ⟨r, hr⟩ := (hillegal s.regs.cmd).mp hne
  exact ⟨⟨_, engineStep_of_illegal hb hr, raise_faulted s illegalReport⟩, step_of_nil, fun rest => step_of_engine⟩

/-- Settles O22: such an agenda gives the engine its turn, which completes the pending command. -/
theorem pendingCompletes : Obligations.PendingCompletes := by
  rintro s hb (ha | ⟨rest, ha⟩)
  · obtain ⟨t, ht, hidle, -⟩ := engineStep_completes hb
    exact ⟨t, (step_of_nil ha).trans ht, hidle⟩
  · obtain ⟨t, ht, hidle, -⟩ := engineStep_completes (s := s.withAgenda rest) hb
    exact ⟨t, (step_of_engine ha).trans ht, hidle⟩

/-- Settles O23: the polls leave the command pending and the agenda empty, so that the next step completes it (O22). -/
theorem pollsThenCompletion : Obligations.PollsThenCompletion := by
  intro n s hb ha
  obtain ⟨t, hrun, hregs, hmem, hagenda, hdata⟩ := run_polls ha
  refine ⟨⟨t, hrun, hregs, hmem, hagenda, fun hn => hdata (.inl hn)⟩, ?_⟩
  have hpending : t.busy = true := by rw [State.busy, hregs]; exact hb
  obtain ⟨u, hu, hidle⟩ := pendingCompletes t hpending (.inl hagenda)
  exact ⟨u, (run_succ_of_next hrun).trans hu, hidle⟩

/-- Settles O54: neither a turn of the engine nor a transaction of the host changes a parameter. -/
theorem configNeverChanges : Obligations.ConfigNeverChanges := by
  intro s t ht
  rcases step_cases s with ⟨-, hs⟩ | ⟨act, rest, -, hs⟩ <;> rw [hs] at ht
  · exact (engineStep_framed ht).config_kept
  · exact performHost_config (s := s.withAgenda rest) ht

/-- Settles O55: the engine's turn is framed, and the other transactions leave the register file alone. -/
theorem onlyHostWritesOperands : Obligations.OnlyHostWritesOperands := by
  intro s t ht hw hr
  show OperandsKept s t
  rcases step_cases s with ⟨-, hs⟩ | ⟨act, rest, ha, hs⟩ <;> rw [hs] at ht
  · exact (engineStep_framed ht).operandsKept
  · refine operandsKept_of_regs (performHost_regs (s := s.withAgenda rest) ht ?_ ?_)
    · rintro off v rfl
      exact hw off v rest ha
    · rintro rfl
      exact hr rest ha

/-- Settles O56: a faulted block is not pending, so the engine does nothing, and the host's writes keep the fault. -/
theorem onlyResetClearsFault : Obligations.OnlyResetClearsFault := by
  intro s t h he ht hsoft hhard
  obtain ⟨hcmd, hstatus, hcode, hinfo⟩ := step_keeps_fault h he ht hsoft hhard
  refine ⟨?_, hcode, hinfo, hcmd⟩
  rw [State.err, hstatus]
  exact he

end Sys2Proof.Machine

/-! SUPPORT. The bytes that `CSC_FWD` and `CSC_INV` compute by plane and pixel (40_colour_transform R116, R117, R120, R125),
and from which addresses. -/

namespace Sys2Proof.Machine

section
variable {r : Registers} {k y x i j : Nat} (c : Config) (rd : Nat → Byte)

theorem inputsOf_cscFwd_of_pixel (h : fwdPixel r k = (y, x)) : inputsOf .cscFwd r k =
    [r.src.toNat + 3 * (y * r.w + x), r.src.toNat + 3 * (y * r.w + x) + 1, r.src.toNat + 3 * (y * r.w + x) + 2] := by
  simp [inputsOf, h, rgbAddr]

theorem cscFwdByte_luma (hy : y < r.h) (hx : x < r.w) : cscFwdByte c r rd (y * r.w + x) =
    fwdY c.coefFwd (rd (r.src.toNat + 3 * (y * r.w + x) + 0)) (rd (r.src.toNat + 3 * (y * r.w + x) + 1))
      (rd (r.src.toNat + 3 * (y * r.w + x) + 2)) := by
  simp only [cscFwdByte, fwdPixel_luma hy hx, rgbAddr, if_pos (index_lt hy hx)]

theorem cscFwdByte_u (hi : i < r.ch) (hj : j < r.cw) : cscFwdByte c r rd (r.w * r.h + (i * r.cw + j)) =
    fwdU c.coefFwd (rd (r.src.toNat + 3 * (2 * i * r.w + 2 * j) + 0)) (rd (r.src.toNat + 3 * (2 * i * r.w + 2 * j) + 1))
      (rd (r.src.toNat + 3 * (2 * i * r.w + 2 * j) + 2)) := by
  simp only [cscFwdByte, (fwdPixel_chroma hi hj).1, rgbAddr]
  rw [if_neg (by omega), if_pos (Nat.add_lt_add_left (index_lt hi hj) _)]

theorem cscFwdByte_v (hi : i < r.ch) (hj : j < r.cw) :
    cscFwdByte c r rd (r.w * r.h + (r.cw * r.ch + (i * r.cw + j))) =
    fwdV c.coefFwd (rd (r.src.toNat + 3 * (2 * i * r.w + 2 * j) + 0)) (rd (r.src.toNat + 3 * (2 * i * r.w + 2 * j) + 1))
      (rd (r.src.toNat + 3 * (2 * i * r.w + 2 * j) + 2)) := by
  simp only [cscFwdByte, (fwdPixel_chroma hi hj).2, rgbAddr]
  rw [if_neg (by omega), if_neg (by omega)]

/-- Chroma comes from pixels of even row and column (40_colour_transform R116). -/
theorem fwdPixel_chroma_even (hk : r.w * r.h ≤ k) : (fwdPixel r k).1 % 2 = 0 ∧ (fwdPixel r k).2 % 2 = 0 := by
  rw [fwdPixel, if_neg hk.not_gt]
  exact ⟨Nat.mul_mod_right 2 _, Nat.mul_mod_right 2 _⟩

/-- The three samples of a pixel have the same inputs: its luma byte and its block's chroma (40_colour_transform R120). -/
theorem inputsOf_cscInv_at {m : Nat} (hx : x < r.w) (hm : m < 3) : inputsOf .cscInv r (3 * (y * r.w + x) + m) =
    [yAddr r.w r.src.toNat y x, uAddr r.w r.h r.src.toNat (y / 2) (x / 2),
      vAddr r.w r.h r.src.toNat (y / 2) (x / 2)] := by
  simp only [inputsOf, invPixel_at hx hm]

/-- Sample `m` of a pixel is red, green or blue as `m` is 0, 1 or 2 (20_memory R64, 40_colour_transform R125). -/
theorem cscInvByte_at (hx : x < r.w) :
    let yv := rd (yAddr r.w r.src.toNat y x)
    let uv := rd (uAddr r.w r.h r.src.toNat (y / 2) (x / 2))
    let vv := rd (vAddr r.w r.h r.src.toNat (y / 2) (x / 2))
    cscInvByte c r rd (3 * (y * r.w + x) + 0) = invR c.coefInv yv uv vv ∧
      cscInvByte c r rd (3 * (y * r.w + x) + 1) = invG c.coefInv yv uv vv ∧
      cscInvByte c r rd (3 * (y * r.w + x) + 2) = invB c.coefInv yv uv vv := by
  have pixel : ∀ m < 3, invPixel r (3 * (y * r.w + x) + m) = (y, x) := fun m hm => invPixel_at hx hm
  have sample : ∀ m < 3, (3 * (y * r.w + x) + m) % 3 = m := by omega
  refine ⟨?_, ?_, ?_⟩
  · simp only [cscInvByte, pixel 0 (by decide), sample 0 (by decide)]
  · simp only [cscInvByte, pixel 1 (by decide), sample 1 (by decide)]
  · simp only [cscInvByte, pixel 2 (by decide), sample 2 (by decide)]

end

/-- The byte that a ready `CSC_FWD` stores at an offset, from the pixel it belongs to. -/
theorem read_cscFwd {s : State} {k p y x : Nat} (hk : k < s.regs.yuvBytes) (hp : p = s.regs.dst.toNat + k)
    (hpix : fwdPixel s.regs k = (y, x))
    (hc : s.Clear [p, s.regs.src.toNat + 3 * (y * s.regs.w + x), s.regs.src.toNat + 3 * (y * s.regs.w + x) + 1,
      s.regs.src.toNat + 3 * (y * s.regs.w + x) + 2]) :
    (s.storeResult .cscFwd (effectOf .cscFwd)).succeed.mem.read p = cscFwdByte s.config s.regs s.mem.read k := by
  rw [← inputsOf_cscFwd_of_pixel hpix] at hc
  exact read_stored hk hp hc

/-- The byte that a ready `CSC_INV` stores as sample `m` of a pixel. -/
theorem read_cscInv {s : State} {y x m : Nat} (hy : y < s.regs.h) (hx : x < s.regs.w) (hm : m < 3)
    (hc : s.Clear [s.regs.dst.toNat + 3 * (y * s.regs.w + x) + m, yAddr s.regs.w s.regs.src.toNat y x,
      uAddr s.regs.w s.regs.h s.regs.src.toNat (y / 2) (x / 2),
      vAddr s.regs.w s.regs.h s.regs.src.toNat (y / 2) (x / 2)]) :
    (s.storeResult .cscInv (effectOf .cscInv)).succeed.mem.read (s.regs.dst.toNat + 3 * (y * s.regs.w + x) + m) =
      cscInvByte s.config s.regs s.mem.read (3 * (y * s.regs.w + x) + m) := by
  have hlt := index_lt hy hx
  have hk : 3 * (y * s.regs.w + x) + m < s.regs.rgbBytes := by
    unfold Registers.rgbBytes
    omega
  rw [← inputsOf_cscInv_at hx hm] at hc
  exact read_stored hk (Nat.add_assoc _ _ _) hc

/-! CERTIFICATES. What each command writes, leaves alone and depends on. -/

/-- Settles O32: each plane's bytes are where `cscFwdByte` splits, and `fwdPixel` gives the pixel. -/
theorem cscFwdResult : Obligations.CscFwdResult := by
  intro s hready
  have hsize : s.regs.yuvBytes = s.regs.w * s.regs.h + 2 * (s.regs.cw * s.regs.ch) := rfl
  refine ⟨_, exec_ready hready, storeResult_succeeded .cscFwd s, fun y x hy hx hc => ?_, fun i j hi hj hc => ?_,
    fun i j hi hj hc => ?_⟩
  · have hlt := index_lt hy hx
    exact (read_cscFwd (by omega) (Nat.add_assoc _ _ _) (fwdPixel_luma hy hx) hc).trans
      (cscFwdByte_luma s.config _ hy hx)
  · have hlt : i * s.regs.cw + j < s.regs.cw * s.regs.ch := index_lt hi hj
    exact (read_cscFwd (by omega) (by simp only [Registers.cw]; omega) (fwdPixel_chroma hi hj).1 hc).trans
      (cscFwdByte_u s.config _ hi hj)
  · have hlt : i * s.regs.cw + j < s.regs.cw * s.regs.ch := index_lt hi hj
    exact (read_cscFwd (by omega) (by simp only [Registers.cw, Registers.ch]; omega) (fwdPixel_chroma hi hj).2 hc).trans
      (cscFwdByte_v s.config _ hi hj)

/-- Settles O33: the three samples of a pixel are where `cscInvByte` splits, and `invPixel` gives the pixel. -/
theorem cscInvResult : Obligations.CscInvResult := by
  intro s hready
  refine ⟨_, exec_ready hready, storeResult_succeeded .cscInv s, fun y x hy hx => ?_⟩
  obtain ⟨hr, hg, hb⟩ := cscInvByte_at (y := y) s.config s.mem.read hx
  exact ⟨fun hc => (read_cscInv hy hx (by decide) hc).trans hr,
    fun hc => (read_cscInv hy hx (by decide) hc).trans hg, fun hc => (read_cscInv hy hx (by decide) hc).trans hb⟩

/-- Settles O34: byte `k` has the two inputs at offset `k`, and `diffByte` is their difference. -/
theorem diffResult : Obligations.DiffResult := fun s hready =>
  ⟨_, exec_ready hready, storeResult_succeeded .diff s, fun _ hk hc => read_stored (i := .diff) hk rfl hc⟩

/-- Settles O35: byte `k` has the two inputs at offset `k`, and `accByte` is their sum. -/
theorem accResult : Obligations.AccResult := fun s hready =>
  ⟨_, exec_ready hready, storeResult_succeeded .acc s, fun _ hk hc => read_stored (i := .acc) hk rfl hc⟩

/-- Settles O38: a ready command ends with success (`Succeeded`), another one with a fault (`Faulted`); both are framed. -/
theorem commandFrame : Obligations.CommandFrame := by
  intro i s t ht
  refine ⟨exec_framed ht, exec_idle ht, ?_⟩
  by_cases hr : s.ReadyFor i
  · cases (exec_ready hr).symm.trans ht
    have h := storeResult_succeeded i s
    exact ⟨h.mem, fun _ => ⟨h.errcode, h.errinfo, h.err⟩, fun hn => absurd hr hn⟩
  · obtain ⟨e, -, he⟩ := exec_not_ready hr
    cases he.symm.trans ht
    exact ⟨fun _ _ => rfl, fun h => absurd h hr, fun _ => ⟨fun _ => rfl, (raise_faulted s e).done⟩⟩

/-- Settles O40: `inputsOf` lists addresses of the regions read, and the command's byte is a function of their bytes. -/
theorem byteDependsOnItsInputs : Obligations.ByteDependsOnItsInputs := by
  intro i s₁ s₂ k hc hr h₁ h₂ hready hk
  have hready₂ : s₂.ReadyFor i := by rw [State.ReadyFor, ← hc, ← hr]; exact hready
  exact ⟨inputsOf_in_regions hready hk,
    fun h => ⟨_, _, exec_ready hready, exec_ready hready₂, read_exec_congr hc hr h₁ h₂ hk h⟩⟩

/-- Settles O41: the inputs of a chroma byte are those of a pixel with even row and column (O40). -/
theorem chromaIgnoresOddPixels : Obligations.ChromaIgnoresOddPixels := by
  intro s₁ s₂ hc hr h₁ h₂ hready hpix
  have hready₂ : s₂.ReadyFor .cscFwd := by rw [State.ReadyFor, ← hc, ← hr]; exact hready
  refine ⟨_, _, exec_ready hready, exec_ready hready₂, fun k hlow hk => ?_⟩
  obtain ⟨hy, hx⟩ := fwdPixel_lt hready.shaped.geometry k
  obtain ⟨hy₂, hx₂⟩ := fwdPixel_chroma_even hlow
  have hsample := fun m => hpix _ _ m hy hx hy₂ hx₂
  refine read_exec_congr (i := .cscFwd) hc hr h₁ h₂ hk fun a ha => ?_
  simp only [inputsOf, List.mem_cons, List.not_mem_nil, or_false] at ha
  rcases ha with rfl | rfl | rfl
  · exact hsample 0 (by decide)
  · exact hsample 1 (by decide)
  · exact hsample 2 (by decide)

/-- Settles O30: what each check can report, and of which commands, is what `firstFault` can. -/
theorem faultMatrix : Obligations.FaultMatrix := by
  intro i s t hn ht
  obtain ⟨e, hf, he⟩ := exec_not_ready hn
  cases he.symm.trans ht
  have code : ∀ k : ErrorKind, e.kind = k → (s.raise e).regs.errcode = k.code := fun k hk => congrArg ErrorKind.code hk
  have names_ref : (s.raise e).regs.errinfo = 0x24 → e.info = .ref := fun h => offset_inj (n := .ref) h
  rcases firstFault_kind hf with ⟨hk, hi⟩ | ⟨hk, hi⟩ | ⟨hk, hi⟩ | ⟨hk, hi, hseq⟩ | ⟨hk, hi, hdec⟩
  · exact ⟨.inl (code _ hk), fun h => absurd (names_ref h) hi⟩
  · exact ⟨.inr (.inl (code _ hk)), fun h => hi (names_ref h)⟩
  · exact ⟨.inr (.inr (.inl (code _ hk))), fun h => hi (names_ref h)⟩
  · exact ⟨.inr (.inr (.inr (.inl ⟨code _ hk, hseq⟩))), fun h => absurd (names_ref h) hi⟩
  · exact ⟨.inr (.inr (.inr (.inr ⟨code _ hk, hdec⟩))), fun h => absurd (names_ref h) hi⟩

/-- Settles O31: `firstFault` takes the registers and the memory size, and either end changes registers by themselves. -/
theorem checksReadRegistersOnly : Obligations.ChecksReadRegistersOnly := by
  intro i s₁ s₂ hr hm
  simp only [exec_eq_complete]
  cases hf : firstFault i s₁.config.memSize s₁.regs with
  | none =>
    have hf₂ : firstFault i s₂.config.memSize s₂.regs = none := hr ▸ hm ▸ hf
    refine ⟨_, _, complete_ok hf, complete_ok hf₂, ?_⟩
    rw [State.succeed_regs, State.succeed_regs, State.storeResult_regs, State.storeResult_regs, hr]
  | some e =>
    have hf₂ : firstFault i s₂.config.memSize s₂.regs = some e := hr ▸ hm ▸ hf
    refine ⟨_, _, complete_fault hf, complete_fault hf₂, ?_⟩
    rw [State.raise_regs, State.raise_regs, hr]

end Sys2Proof.Machine

namespace Sys2Proof.Machine

/-! SUPPORT. Narrowing of a real value that is a fraction of integers (40_colour_transform R113, R123), and the fractions of
the document's rows (R111, R121). -/

/-- Rounding a fraction toward zero is truncating division. -/
theorem towardZero_div (n : Int) (d : Nat) : towardZero (n / d) = n.tdiv d := (Ratio.trunc_eq_towardZero ⟨n, d⟩).symm

/-- A forward value in `0 .. 255` is the floor quotient; the reduction modulo 256 changes nothing. -/
theorem wrap8_of_fraction {q : Ratio} {n : Int} {d : Nat} (hq : q.val = n / d) (hn : 0 ≤ n) (hd : n < 256 * d) :
    ((wrap8 q).toNat : Int) = n / d := by
  rw [toNat_wrap8, hq, towardZero_div, Int.tdiv_eq_ediv_of_nonneg hn]
  have hpos : (0 : Int) < d := by omega
  exact Int.emod_eq_of_lt (Int.ediv_nonneg hn hpos.le) (Int.ediv_lt_of_lt_mul hpos hd)

/-- An inverse value over 1000: zero below zero, 255 from 255000 on, else the floor quotient. -/
theorem clamp8_of_thousandths {q : Ratio} {n : Int} (hden : 0 < q.den) (hq : q.val = n / (1000 : Nat)) :
    ((clamp8 q).toNat : Int) = if n < 0 then 0 else if 255000 ≤ n then 255 else n / 1000 := by
  rw [(toNat_clamp8_both hden).2, hq, towardZero_div]
  by_cases hn : n < 0
  · have hneg : 0 ≤ -n.tdiv (1000 : Nat) := by
      rw [← Int.neg_tdiv]
      exact Int.tdiv_nonneg (neg_nonneg.mpr hn.le) (by decide)
    rw [if_pos hn]
    omega
  · rw [if_neg hn, Int.tdiv_eq_ediv_of_nonneg (not_lt.mp hn)]
    split <;> omega

theorem wf_coefFwd_document : CoefFwd.document.y.wf = true ∧ CoefFwd.document.u.wf = true ∧
    CoefFwd.document.v.wf = true := by decide

theorem wf_coefInv_document : CoefInv.document.r.wf = true ∧ CoefInv.document.g.wf = true ∧
    CoefInv.document.b.wf = true := by decide

/-! CERTIFICATES. The integer forms of 40_colour_transform, what they say of greys, the decoder's samples and the inversion
law of the delta coder. -/

/-- Settles O46: each row's real value is its numerator over the denominator, and for bytes it lies in `0 .. 255`. -/
theorem forwardIntegerForm : Obligations.ForwardIntegerForm := by
  intro r g b
  obtain ⟨hy, hu, hv⟩ := wf_coefFwd_document
  have hr := r.isLt
  have hg := g.isLt
  have hb := b.isLt
  refine ⟨wrap8_of_fraction (d := 1000) ((val_fwdReal hy r g b).trans ?_) (by omega) (by omega),
    wrap8_of_fraction (d := 1000) ((val_fwdReal hu r g b).trans ?_) (by omega) (by omega),
    wrap8_of_fraction (d := 10000) ((val_fwdReal hv r g b).trans ?_) (by omega) (by omega)⟩
  all_goals
    simp only [CoefFwd.document, Ratio.val]
    push_cast
    ring

/-- Settles O47: each row's real value is its numerator over 1000, and `clamp8` of it is the clamped quotient. -/
theorem inverseIntegerForm : Obligations.InverseIntegerForm := by
  intro y u v
  obtain ⟨hr, hg, hb⟩ := wf_coefInv_document
  refine ⟨clamp8_of_thousandths (den_invReal_pos hr _ y u v) ((val_invReal hr _ y u v).trans ?_),
    clamp8_of_thousandths (den_invReal_pos hg _ y u v) ((val_invReal hg _ y u v).trans ?_),
    clamp8_of_thousandths (den_invReal_pos hb _ y u v) ((val_invReal hb _ y u v).trans ?_)⟩
  all_goals
    simp only [CoefInv.document, Ratio.val]
    push_cast
    ring

/-- Settles O48: the integer forms (O46, O47) at `R = G = B = g` and at neutral chroma. -/
theorem greys : Obligations.Greys := by
  intro g
  have hg := g.isLt
  obtain ⟨hy, hu, hv⟩ := forwardIntegerForm g g g
  obtain ⟨hr, hgr, hb⟩ := inverseIntegerForm g 128 128
  have neutral : ((128 : Byte).toNat : Int) = 128 := rfl
  have zero_iff : g = 0 ↔ g.toNat = 0 := BitVec.toNat_inj.symm
  simp only [neutral, sub_self, mul_zero, add_zero, sub_zero] at hr hgr hb
  simp only [zero_iff, ← BitVec.toNat_inj]
  refine ⟨by omega, by omega, ?_, by omega, by omega, by omega⟩
  split <;> omega

/-- Settles O1: the decoder computes each of the sample words. -/
theorem decodeSampleWords : Obligations.DecodeSampleWords := by
  unfold Obligations.DecodeSampleWords
  decide

/-- Settles O43: both samples are the operations of eight-bit words (O42), a commutative group. -/
theorem deltaSamplesInvert : Obligations.DeltaSamplesInvert := by
  intro a b
  simp only [add8_eq_add, sub8_eq_sub]
  exact ⟨sub_add_cancel a b, add_sub_cancel_right a b, add_comm a b⟩

end Sys2Proof.Machine

namespace Sys2Proof.Machine

/-! SUPPORT. Two commands with the same geometry, the second on the memory of the first; frames of a sequence as regions of
their own (20_memory R67). -/

/-- An address is clear when the host has touched nothing. -/
theorem clear_of_nil {s : State} (h : s.touched = []) (l : List Nat) : s.Clear l := fun a _ => by simp [h]

theorem yuvBytes_eq {r r' : Registers} (hw : r'.width = r.width) (hh : r'.height = r.height) :
    r'.yuvBytes = r.yuvBytes := by
  simp only [Registers.yuvBytes, Registers.cw, Registers.ch, Registers.w, Registers.h, hw, hh]

/-- Every byte of a sequence is byte `k` of frame `i`, at the keyframe or after it (20_memory R67). -/
theorem forall_sequence {n f : Nat} {p : Nat → Prop} (key : ∀ k, k < f → p k)
    (later : ∀ i k, i + 1 < n → k < f → p ((i + 1) * f + k)) : ∀ m, m < n * f → p m := by
  intro m hm
  have hf : 0 < f := Nat.pos_of_mul_pos_left (Nat.zero_lt_of_lt hm)
  have hk := Nat.mod_lt m hf
  have hi : m / f < n := Nat.div_lt_of_lt_mul (by rwa [Nat.mul_comm] at hm)
  have hm : m / f * f + m % f = m := by rw [Nat.mul_comm]; exact Nat.div_add_mod m f
  rw [← hm]
  cases hq : m / f with
  | zero => simpa using key _ hk
  | succ i => exact later i _ (hq ▸ hi) hk

/-- Frame `i` of a sequence of `n` frames ends within the sequence. -/
theorem frame_end_le {n i : Nat} (f : Nat) (hi : i < n) : i * f + f ≤ n * f := by
  rw [← Nat.succ_mul]
  exact Nat.mul_le_mul_right f hi

/-- A frame of a sequence in range is in range. -/
theorem frame_in_range {a n f i memSize : Nat} (hi : i < n) (hr : a + n * f ≤ memSize) : a + i * f + f ≤ memSize := by
  have hend := frame_end_le f hi
  omega

/-- Regions inside regions that are apart are apart. -/
theorem Region.Apart.mono {a b a' b' : Region} (h : a.Apart b) (ha : ∀ x, a'.holds x = true → a.holds x = true)
    (hb : ∀ x, b'.holds x = true → b.holds x = true) : a'.Apart b' := fun x ⟨hx, hy⟩ => h x ⟨ha x hx, hb x hy⟩

/-- A frame lies in its sequence. -/
theorem frame_holds {a n f i x : Nat} (hi : i < n) (hx : (Region.mk (a + i * f) f).holds x = true) :
    (Region.mk a (n * f)).holds x = true := by
  have hend := frame_end_le f hi
  rw [Region.holds_iff] at hx ⊢
  simp only at hx ⊢
  omega

/-- Frames of one sequence, one after the other, are apart. -/
theorem frames_apart (a f i : Nat) : (Region.mk (a + (i + 1) * f) f).Apart ⟨a + i * f, f⟩ := by
  rintro x ⟨hx, hy⟩
  rw [Region.holds_iff] at hx hy
  rw [Nat.succ_mul] at hx
  simp only at hx hy
  omega

/-- The address of a frame of a sequence in range is what a 32-bit register holds of it (20_memory R72). -/
theorem toNat_frame_addr {a n f i memSize : Nat} (hf : 0 < f) (hi : i < n) (hr : a + n * f ≤ memSize)
    (hm : memSize ≤ 2 ^ 32) : (BitVec.ofNat 32 (a + i * f)).toNat = a + i * f := by
  have hin := frame_in_range hi hr
  rw [BitVec.toNat_ofNat, Nat.mod_eq_of_lt (by omega)]

/-- The frames of a legal geometry are not empty (00_scope R12). -/
theorem yuvBytes_pos {r : Registers} (g : GeometryOk r) : 0 < r.yuvBytes := by
  have := Nat.mul_pos g.width_ok.1 g.height_ok.1
  unfold Registers.yuvBytes
  omega

/-- A frame command on three frames that are in range, its destination apart from the two others, is ready. -/
theorem ready_of_frames {i : Instr} (hi : i = .diff ∨ i = .acc) {r : Registers} {memSize s q d : Nat}
    (hg : GeometryOk r) (hs : r.src.toNat = s) (hq : r.ref.toNat = q) (hd : r.dst.toNat = d)
    (hs_in : s + r.yuvBytes ≤ memSize) (hq_in : q + r.yuvBytes ≤ memSize) (hd_in : d + r.yuvBytes ≤ memSize)
    (hds : (Region.mk d r.yuvBytes).Apart ⟨s, r.yuvBytes⟩) (hdq : (Region.mk d r.yuvBytes).Apart ⟨q, r.yuvBytes⟩) :
    Ready i memSize r := by
  subst hs hq hd
  rcases hi with rfl | rfl
  all_goals exact {
    shaped   := ⟨hg, nofun, nofun⟩
    in_range := ⟨hs_in, fun g h => Option.some.inj h ▸ hq_in, hd_in⟩
    apart    := ⟨hds, fun g h => Option.some.inj h ▸ hdq⟩ }

/-! CERTIFICATES. The laws over two commands. -/

/-- Settles O49: by induction on the frames, the decoder's recurrence (O37) undoes the encoder's difference (O36). -/
theorem deltaRoundTrip : Obligations.DeltaRoundTrip := by
  intro s t s' hready ht ht' hmem hs' hready' hw hh hn hsrc
  obtain ⟨t₂, he, -, henc_key, henc_later⟩ := deltaEncResult s hready
  cases ht'.symm.trans he
  obtain ⟨u, hu, hsucc, hdec_key, hdec_later, -⟩ := deltaDecResult s' hready'
  have hn : s'.regs.n = s.regs.n := congrArg BitVec.toNat hn
  simp only [yuvBytes_eq hw hh, hmem, hn, hsrc] at hdec_key hdec_later
  have frames : ∀ i k, i < s.regs.n → k < s.regs.yuvBytes →
      u.mem.read (s'.regs.dst.toNat + i * s.regs.yuvBytes + k) =
        s.mem.read (s.regs.src.toNat + i * s.regs.yuvBytes + k) := by
    intro i k hi hk
    induction i with
    | zero =>
      simp only [Nat.zero_mul, Nat.add_zero]
      exact (hdec_key k hk (clear_of_nil hs' _)).trans (henc_key k hk (clear_of_nil ht _))
    | succ i ih =>
      rw [hdec_later i k hi hk (clear_of_nil hs' _) (by simp [hs']), ih (Nat.lt_of_succ_lt hi),
        henc_later i k hi hk (clear_of_nil ht _)]
      exact (deltaSamplesInvert _ _).1
  refine ⟨u, hu, hsucc, forall_sequence (fun k hk => ?_) fun i k hi hk => ?_⟩
  · simpa using frames 0 k (hready.shaped.frames_ok (.inl rfl)) hk
  · simpa only [Nat.add_assoc] using frames (i + 1) k hi hk

/-- Settles O50: the encoder's difference of two reconstructed frames (O36) undoes the decoder's recurrence (O37). -/
theorem deltaRoundTripConverse : Obligations.DeltaRoundTripConverse := by
  intro s t s' hready ht ht' hmem hs' hready' hw hh hn hsrc
  obtain ⟨t₂, he, -, hdec_key, hdec_later, -⟩ := deltaDecResult s hready
  cases ht'.symm.trans he
  obtain ⟨u, hu, hsucc, henc_key, henc_later⟩ := deltaEncResult s' hready'
  have hn : s'.regs.n = s.regs.n := congrArg BitVec.toNat hn
  simp only [yuvBytes_eq hw hh, hmem, hn, hsrc] at henc_key henc_later
  refine ⟨u, hu, hsucc, forall_sequence (fun k hk => ?_) fun i k hi hk => ?_⟩
  · exact (henc_key k hk (clear_of_nil hs' _)).trans (hdec_key k hk (clear_of_nil ht _))
  · rw [← Nat.add_assoc, ← Nat.add_assoc, henc_later i k hi hk (clear_of_nil hs' _),
      hdec_later i k hi hk (clear_of_nil ht _) (by simp [ht])]
    exact (deltaSamplesInvert _ _).2.1

/-- Settles O51: the pixel's luma byte and its block's chroma bytes are read where `CSC_FWD` left them (O32, O33). -/
theorem colourRoundTrip : Obligations.ColourRoundTrip := by
  intro s t s' hready ht ht' hmem hs' hready' hw hh hsrc
  obtain ⟨t₂, he, -, hluma, hu, hv⟩ := cscFwdResult s hready
  cases ht'.symm.trans he
  obtain ⟨u, hexec, hsucc, hinv⟩ := cscInvResult s' hready'
  have hw : s'.regs.w = s.regs.w := congrArg BitVec.toNat hw
  have hh : s'.regs.h = s.regs.h := congrArg BitVec.toNat hh
  simp only [hw, hh, hmem, hsrc] at hinv
  refine ⟨u, hexec, hsucc, fun y x hy hx => ?_⟩
  obtain ⟨hr, hg, hb⟩ := hinv y x hy hx
  obtain ⟨⟨-, hw_even⟩, -, hh_even⟩ := hready.shaped.geometry
  have hi : y / 2 < s.regs.h / 2 := by omega
  have hj : x / 2 < s.regs.w / 2 := by omega
  have hc := clear_of_nil hs'
  have hc₀ := clear_of_nil ht
  rw [hluma y x hy hx (hc₀ _), hu _ _ hi hj (hc₀ _), hv _ _ hi hj (hc₀ _)] at hr hg hb
  exact ⟨hr (hc _), hg (hc _), hb (hc _)⟩

/-- Settles O52: each step works on three frames of two sequences that are in range and apart; of one sequence it takes two
successive frames at most. -/
theorem chainStepsReady : Obligations.ChainStepsReady := by
  intro r memSize i hm hi f s d
  refine ⟨fun h => ?_, fun h => ?_⟩
  all_goals
    have hg := h.shaped.geometry
    have hf : 0 < f := yuvBytes_pos hg
    have hs : s + r.n * f ≤ memSize := h.in_range.source_in
    have hd : d + r.n * f ≤ memSize := h.in_range.dest_in
    have hi' : i < r.n := Nat.lt_of_succ_lt hi
    have hapart : ∀ j, j < r.n → (Region.mk (d + (i + 1) * f) f).Apart ⟨s + j * f, f⟩ := fun j hj =>
      h.apart.source_away.mono (fun _ => frame_holds hi) fun _ => frame_holds hj
  · exact ready_of_frames (.inl rfl) ⟨hg.1, hg.2⟩ (toNat_frame_addr hf hi hs hm) (toNat_frame_addr hf hi' hs hm)
      (toNat_frame_addr hf hi hd hm) (frame_in_range hi hs) (frame_in_range hi' hs) (frame_in_range hi hd) (hapart _ hi)
      (hapart _ hi')
  · exact ready_of_frames (.inr rfl) ⟨hg.1, hg.2⟩ (toNat_frame_addr hf hi hs hm) (toNat_frame_addr hf hi' hd hm)
      (toNat_frame_addr hf hi hd hm) (frame_in_range hi hs) (frame_in_range hi' hd) (frame_in_range hi hd) (hapart _ hi)
      (frames_apart d f i)

end Sys2Proof.Machine
